-- ==== Sys2Proof/Word.lean ====
section
/-! DEFINITION. The sizes of AESCORE's data: a byte (spec/00_scope.md R7, R8), a host-port address and a length
register (spec/20_memory.md R50, spec/10_state.md R24), the four-byte word of key expansion (spec/42_key_schedule.md
R141) and the sixteen-byte block or State matrix (spec/10_state.md R34). -/

namespace Sys2Proof

/-- An integer 0..255, bit 7 the most significant (R7, R8). -/
abbrev Byte := BitVec 8

/-- A host-port address: it names one byte location (R50). -/
abbrev Addr := BitVec 32

/-- A length register, ILEN or OLEN (R24, R27). -/
abbrev Len := BitVec 32

/-- A word of key expansion, or one column of the State: four bytes in generation order, `b0` the first.
It is never packed into an integer (R141). -/
structure Word where
  b0 : Byte
  b1 : Byte
  b2 : Byte
  b3 : Byte
deriving DecidableEq, Repr

/-- A block, a round key or the 4×4 State matrix, as its four columns: byte `i` is row `i mod 4` of column `i / 4` (R34, R160). -/
structure Block where
  c0 : Word
  c1 : Word
  c2 : Word
  c3 : Word
deriving DecidableEq, Repr

def Word.zero : Word := ⟨0, 0, 0, 0⟩

def Block.zero : Block := ⟨.zero, .zero, .zero, .zero⟩

end Sys2Proof
end

