-- ==== Sys2Proof/Config.lean ====
section
/-! DEFINITION. The parameters an implementation of AESCORE fixes (spec/00_scope.md R6). MSG_MAX is the only open one: its
bounds and its suggested default stand here; its value is the field `msgMax` of State, so that a statement about every
state is a statement about every MSG_MAX (assumption 1). AESCORE is fully deterministic for a given MSG_MAX
(spec/93_implementation_defined.md, opening), so there is no free value. -/

namespace Sys2Proof.Config

/-- The least legal MSG_MAX (R6): the block commands read IBUF[0..15]. -/
def msgMaxLeast : Nat := 16

/-- The greatest legal MSG_MAX (R6): IBUF stays below the addresses of OBUF. -/
def msgMaxMost : Nat := 0x0FFFFFF0

/-- The suggested default of MSG_MAX (R6, 92_eei_decisions.md D6). -/
def msgMaxDefault : Nat := 4096

/-- OBUF holds this many bytes more than IBUF (R6, R26). -/
def outputExtra : Nat := 16

end Sys2Proof.Config
end

