-- ==== Sys2Proof/Syntax.lean ====
section
/-! DEFINITION. The command set of AESCORE: the five rows of spec/opcode_table.json (spec/30_encoding.md R81). No command
carries an operand field (R80, R82). -/

namespace Sys2Proof

/-- A command, one constructor per row of the opcode table. -/
inductive Instr where
  /-- EXPANDKEY, opcode 0x01: `expandKey(key)` (R147). -/
  | expandkey
  /-- ENCBLK, opcode 0x02: `encryptBlock(state, schedule)` (R171). -/
  | encblk
  /-- DECBLK, opcode 0x03: `decryptBlock(state, schedule)` (R172). -/
  | decblk
  /-- ENCMSG, opcode 0x04: `encryptMessage(plaintext, key, iv)` (R194). -/
  | encmsg
  /-- DECMSG, opcode 0x05: `decryptMessage(ciphertext, key, iv)` (R195). -/
  | decmsg
deriving DecidableEq, Repr

end Sys2Proof
end

