-- ==== Sys2Proof/WellFormed.lean ====
section
/-! DEFINITION. What is well formed. A command has no operand (spec/30_encoding.md R82), so every term of Instr is well formed
and there is no ill-formed one to refuse. The one configuration parameter has a legal range (spec/00_scope.md R6). -/

namespace Sys2Proof

/-- Every command is well formed: it has no field that could be out of range (R80, R82). -/
def Instr.wf : Instr → Bool
  | .expandkey => true
  | .encblk => true
  | .decblk => true
  | .encmsg => true
  | .decmsg => true

/-- The constraint on MSG_MAX, 16 ≤ MSG_MAX ≤ 0x0FFFFFF0 (R6). -/
def msgMaxLegal (m : Nat) : Bool :=
  decide (Config.msgMaxLeast ≤ m) && decide (m ≤ Config.msgMaxMost)

end Sys2Proof
end

