-- ==== Sys2Proof/Decode.lean ====
section
/-! DEFINITION. The decoder of the command byte, total on all 256 values, and the encoder (spec/30_encoding.md R80, R81, R83). -/

namespace Sys2Proof

/-- One row of the opcode table: the byte `b` is this command when `b &&& mask = pattern` (R81). -/
structure OpcodeRow where
  mask : Byte
  pattern : Byte
  instr : Instr
deriving DecidableEq, Repr

/-- The opcode table of R81: mask 0xFF for every row, pattern the opcode. -/
def opcodeTable : List OpcodeRow :=
  [ ⟨0xFF#8, 0x01#8, .expandkey⟩,
    ⟨0xFF#8, 0x02#8, .encblk⟩,
    ⟨0xFF#8, 0x03#8, .decblk⟩,
    ⟨0xFF#8, 0x04#8, .encmsg⟩,
    ⟨0xFF#8, 0x05#8, .decmsg⟩ ]

/-- Why a byte is no command. -/
inductive DecodeError where
  /-- The opcode is not 0x01 to 0x05 (R83); the machine raises IllegalCommand on it. -/
  | illegalCommand (op : Byte)
deriving DecidableEq, Repr

/-- The command a byte written to CMD stands for: the whole byte selects it (R80). -/
def decode (op : Byte) : Except DecodeError Instr :=
  match opcodeTable.find? (fun r => op &&& r.mask == r.pattern) with
  | some r => .ok r.instr
  | none => .error (.illegalCommand op)

/-- The opcode byte of a command (R81). -/
def encode : Instr → Byte
  | .expandkey => 0x01#8
  | .encblk => 0x02#8
  | .decblk => 0x03#8
  | .encmsg => 0x04#8
  | .decmsg => 0x05#8

/-- The command byte of a word as spec/opcode_table.json numbers it: bits `nbits - 1 .. 0` of `w`, every higher bit 0.
A command is one byte (R80), so it is the lowest byte of those bits. -/
def tableByte (nbits w : Nat) : Byte := BitVec.ofNat 8 (w % 2 ^ nbits)

/-- The command the decoder reads from a word of the opcode table. -/
def decodeTableWord (nbits w : Nat) : Option Instr :=
  match decode (tableByte nbits w) with
  | .ok i => some i
  | .error _ => none

end Sys2Proof
end

