-- ==== Sys2Proof/Machine/State.lean ====
section
/-! DEFINITION. The state of one AESCORE instance (spec/10_state.md R39), the host's side of the port as far as the model
carries it (the transactions the host has still to issue and those it has issued), the error kinds (spec/30_encoding.md R84), the
reasons a step can stop, and the state after reset (spec/10_state.md R37). -/

namespace Sys2Proof.Machine

/-- A buffer (IBUF or OBUF): the bytes that are not 0x00, as (index, byte) pairs with strictly rising indexes. -/
abbrev Memory := List Host.Cell

/-- What an index that is not listed reads as: every byte of both buffers is 0x00 after reset (R37). -/
def unlistedByte : Byte := 0x00#8

/-- The canonical form of a buffer whose listed indexes lie from `lo` up to, not including, `hi`: strictly rising indexes, no
entry equal to `unlistedByte` (assumption 9). -/
def Memory.wfIn (lo hi : Nat) : Memory → Bool
  | [] => true
  | (k, b) :: m => decide (lo ≤ k) && decide (k < hi) && b != unlistedByte && Memory.wfIn (k + 1) hi m

/-- The canonical form of a buffer of `capacity` bytes. -/
def Memory.wf (capacity : Nat) (m : Memory) : Bool := Memory.wfIn 0 capacity m

/-- The seven errors a command can end with (R84, R220). They are no faults of the model: a failed command ends with ERR set. -/
inductive ErrorKind where
  | invalidKeyLength
  | invalidBlockLength
  | invalidCiphertextLength
  | invalidPadding
  | noSchedule
  | messageTooLong
  | illegalCommand
deriving DecidableEq, Repr

/-- What the host can do next to AESCORE. `read`, `write` are the two transactions of spec/20_memory.md R52, R53; `move` is
the pair "RD src, then WR dst with the value read" that MOVOI is made of (spec/30_encoding.md R87), one transaction a step (DESIGN CHOICE, assumption 8);
`reset` is the reset event (spec/70_reset_and_hazards.md R250; DESIGN CHOICE, assumption 4). There is one host, and no wider transaction (assumption 11). -/
inductive HostOp where
  | read (addr : Addr)
  | write (addr : Addr) (v : Byte)
  | move (src dst : Addr)
  | reset
deriving DecidableEq, Repr

/-- A transaction that has happened on the port: a read with the byte the host got, or a write. -/
inductive PortEvent where
  | read (addr : Addr) (v : Byte)
  | write (addr : Addr) (v : Byte)
deriving DecidableEq, Repr

/-- The faults of the machine: there are none. No access raises a bus fault (spec/20_memory.md R54), a command that cannot
do its work ends with ERR set and the machine goes on (spec/60_exceptions.md R221, R224), and there are no arithmetic exceptions (R220). -/
inductive Fault where
deriving DecidableEq, Repr

/-- The reasons the model is not defined for a step. -/
inductive Refusal where
  /-- Raised by `exec` for a command that has no meaning in the model yet: none at present. Safe: nothing is claimed of such a step. -/
  | notModelled (mnemonic : String)
  /-- Raised by `step` when MSG_MAX is outside 16..0x0FFFFFF0: no such AESCORE exists (R6), and
  spec/93_implementation_defined.md I9 says `refuse` (assumption 5). Safe: nothing is claimed of such a configuration. -/
  | msgMaxOutOfRange
deriving DecidableEq, Repr

structure State where
  /-- KEY[0..31] (R21). -/
  key : Vector Byte 32
  /-- KEYLEN (R22). -/
  keylen : Byte
  /-- IV[0..15] (R23). -/
  iv : Vector Byte 16
  /-- ILEN, read and written as the byte registers ILEN0..ILEN3 (R24). -/
  ilen : Len
  /-- IBUF[0..MSG_MAX-1], by index (R25). -/
  ibuf : Memory
  /-- OBUF[0..MSG_MAX+15], by index (R26). -/
  obuf : Memory
  /-- OLEN, read as the byte registers OLEN0..OLEN3 (R27). -/
  olen : Len
  /-- RK[0..239], the key schedule (R28). -/
  rk : Vector Byte 240
  /-- ROUNDS (R29). -/
  rounds : Byte
  /-- STATUS: bit 0 KVALID, bit 1 ERRF, bits 7:2 reserved (R30). -/
  status : Byte
  /-- ERR, the code of the last command's error, or 0x00 (R31). -/
  err : Byte
  /-- The parameter MSG_MAX (R6). The model's own field: no step writes it (DESIGN CHOICE, assumption 1). -/
  msgMax : Nat
  /-- The host's transactions to come, the next one first. The model's own field: the host's program is no state of AESCORE (R39; DESIGN CHOICE, assumption 2). -/
  pending : List HostOp
  /-- The transactions that have happened, the latest first. The model's own field (DESIGN CHOICE, assumption 3). -/
  trace : List PortEvent
deriving DecidableEq, Repr

/-- The machine right after reset (R37), with MSG_MAX at its suggested default, no transaction pending and none done. -/
def State.reset : State where
  key := Vector.replicate 32 0x00#8
  keylen := 0x00#8
  iv := Vector.replicate 16 0x00#8
  ilen := 0#32
  ibuf := []
  obuf := []
  olen := 0#32
  rk := Vector.replicate 240 0x00#8
  rounds := 0x00#8
  status := 0x00#8
  err := 0x00#8
  msgMax := Config.msgMaxDefault
  pending := []
  trace := []

end Sys2Proof.Machine
end

