-- ==== Sys2Proof/Machine/Bytes.lean ====
section
/-! DEFINITION. Byte sequences as words, blocks and register files, element `j` at index `j` (spec/00_scope.md R7,
spec/20_memory.md R55, spec/10_state.md R34, spec/43_block_transform.md R160). -/

namespace Sys2Proof

/-- Byte `i` of a word, `i` in 0..3 (0x00 above). -/
def Word.get (w : Word) : Nat → Byte
  | 0 => w.b0
  | 1 => w.b1
  | 2 => w.b2
  | 3 => w.b3
  | _ => 0x00#8

def Word.toBytes (w : Word) : List Byte := [w.b0, w.b1, w.b2, w.b3]

/-- The word of the first four bytes of a sequence (a missing byte is 0x00). -/
def Word.ofBytes (l : List Byte) : Word := ⟨l.getD 0 0, l.getD 1 0, l.getD 2 0, l.getD 3 0⟩

/-- Two words, byte by byte: `f a0 b0, f a1 b1, …`. -/
def Word.zip (f : Byte → Byte → Byte) (a b : Word) : Word := ⟨f a.b0 b.b0, f a.b1 b.b1, f a.b2 b.b2, f a.b3 b.b3⟩

def Word.map (f : Byte → Byte) (a : Word) : Word := ⟨f a.b0, f a.b1, f a.b2, f a.b3⟩

/-- XOR of two words is element by element (R141). -/
def Word.xor (a b : Word) : Word := Word.zip (· ^^^ ·) a b

/-- Column `c` of the State, `c` in 0..3 (the zero word above). -/
def Block.col (s : Block) : Nat → Word
  | 0 => s.c0
  | 1 => s.c1
  | 2 => s.c2
  | 3 => s.c3
  | _ => .zero

/-- `s[r,c]`, the element at row `r`, column `c` (R34). -/
def Block.at (s : Block) (r c : Nat) : Byte := (s.col c).get r

/-- Byte `i` of a block: row `i mod 4`, column `i / 4` (R34, R160). -/
def Block.get (s : Block) (i : Nat) : Byte := s.at (i % 4) (i / 4)

def Block.toBytes (s : Block) : List Byte := s.c0.toBytes ++ s.c1.toBytes ++ s.c2.toBytes ++ s.c3.toBytes

/-- The block of the first sixteen bytes of a sequence, byte `i` at position `i` (R160). -/
def Block.ofBytes (l : List Byte) : Block :=
  ⟨Word.ofBytes l, Word.ofBytes (l.drop 4), Word.ofBytes (l.drop 8), Word.ofBytes (l.drop 12)⟩

def Block.mapColumns (f : Word → Word) (s : Block) : Block := ⟨f s.c0, f s.c1, f s.c2, f s.c3⟩

/-- XOR of two sixteen-byte sequences, element by element (R8, R161). -/
def Block.xor (a b : Block) : Block := ⟨a.c0.xor b.c0, a.c1.xor b.c1, a.c2.xor b.c2, a.c3.xor b.c3⟩

namespace Machine

/-- The first `n` words of a byte sequence, in order. -/
def wordsOf : Nat → List Byte → List Word
  | 0, _ => []
  | n + 1, l => Word.ofBytes l :: wordsOf n (l.drop 4)

/-- The first `n` sixteen-byte blocks of a byte sequence, in order. -/
def blocksOf : Nat → List Byte → List Block
  | 0, _ => []
  | n + 1, l => Block.ofBytes l :: blocksOf n (l.drop 16)

/-- The concatenation of blocks. -/
def bytesOf : List Block → List Byte
  | [] => []
  | b :: bs => b.toBytes ++ bytesOf bs

/-- The first `n` bytes of a sequence, followed by 0x00 where it is shorter. -/
def padTo : Nat → List Byte → List Byte
  | 0, _ => []
  | n + 1, [] => 0x00#8 :: padTo n []
  | n + 1, b :: l => b :: padTo n l

theorem padTo_length (n : Nat) (l : List Byte) : (padTo n l).length = n := by
  induction n generalizing l with
  | zero => rfl
  | succ n ih => cases l <;> simp [padTo, ih]

/-- A register file of `n` bytes that holds a byte sequence from index 0 and 0x00 beyond it. -/
def fileOf (n : Nat) (l : List Byte) : Vector Byte n := ⟨⟨padTo n l⟩, padTo_length n l⟩

/-- Register `j` of a file of byte registers. -/
def fileRead {n : Nat} (v : Vector Byte n) (j : Nat) : Byte := (v[j]?).getD 0x00#8

/-- A file of byte registers after register `j` is written. -/
def fileWrite {n : Nat} (v : Vector Byte n) (j : Nat) (b : Byte) : Vector Byte n := v.setIfInBounds j b

/-- Byte `k` of a length register, the least significant byte first (R24, R27, R55). -/
def lenByte (w : Len) (k : Nat) : Byte := (w >>> (8 * k)).setWidth 8

/-- A length register after its byte `k` is written (R24). -/
def setLenByte (w : Len) (k : Nat) (b : Byte) : Len :=
  (w &&& ~~~(0xFF#32 <<< (8 * k))) ||| (b.setWidth 32 <<< (8 * k))

end Machine
end Sys2Proof
end

