-- ==== Sys2Proof/Machine/Field.lean ====
section
/-! DEFINITION. The GF(2^8) primitives: multiplier and inverter (spec/40_gf_primitives.md R100 to R106). Bit `i` of a byte is the
coefficient of x^i (R100); addition is XOR (R101); both are marked by the spec as general knowledge (PRESUMED, assumption 6). -/

namespace Sys2Proof.Machine

/-- Step 1 of R102: the carry-less product, 15 bits. -/
def carrylessProduct (a b : Byte) : BitVec 15 :=
  [0, 1, 2, 3, 4, 5, 6, 7].foldl (fun t i => if b.getLsbD i then t ^^^ (a.setWidth 15 <<< i) else t) 0#15

/-- Step 2 of R102: reduction modulo 0x11B, from bit 14 down to bit 8. -/
def reduce (t : BitVec 15) : Byte :=
  ([14, 13, 12, 11, 10, 9, 8].foldl (fun t i => if t.getLsbD i then t ^^^ (0x11B#15 <<< (i - 8)) else t) t).setWidth 8

/-- Multiplication in GF(2^8): carry-less product, then reduction (R102). -/
def gfMultiply (a b : Byte) : Byte := reduce (carrylessProduct a b)

/-- Multiplication by x (R103). -/
def xtime (a : Byte) : Byte := (a <<< 1) ^^^ (if a.getLsbD 7 then 0x1B#8 else 0x00#8)

/-- The loop of the one-pass form of R102, `n` times: `p` collects the result. -/
def shiftAndAdd : Nat → Byte → Byte → Byte → Byte
  | 0, p, _, _ => p
  | n + 1, p, a, b => shiftAndAdd n (if b.getLsbD 0 then p ^^^ a else p) (xtime a) (b >>> 1)

/-- The one-pass form of multiplication (R102, second form). -/
def gfMultiplyOnePass (a b : Byte) : Byte := shiftAndAdd 8 0x00#8 a b

/-- `a` to the power 2^n, by squaring. -/
def gfSquares : Nat → Byte → Byte
  | 0, a => a
  | n + 1, a => gfSquares n (gfMultiply a a)

/-- The multiplicative inverse, as a^254 = a^2 · a^4 · a^8 · a^16 · a^32 · a^64 · a^128, the method R105 names (DESIGN CHOICE, assumption 7);
0x00 maps to 0x00. -/
def gfInverse (a : Byte) : Byte :=
  [2, 3, 4, 5, 6, 7].foldl (fun p n => gfMultiply p (gfSquares n a)) (gfSquares 1 a)

end Sys2Proof.Machine
end

