-- ==== Sys2Proof/Machine/BlockTransform.lean ====
section
/-! DEFINITION. The block transform engine, as pure functions on the State (spec/43_block_transform.md R160 to R169). -/

namespace Sys2Proof.Machine

/-- XOR with a round key (R161). -/
def addRoundKey (s rkey : Block) : Block := s.xor rkey

/-- Every byte substituted via SBOX (R162). -/
def subBytes (s : Block) : Block := s.mapColumns (Word.map sbox)

/-- Row `r` rotated left by `r`: `s'[r,c] = s[r,(c+r) mod 4]` (R163). -/
def shiftRows (s : Block) : Block :=
  ⟨⟨s.c0.b0, s.c1.b1, s.c2.b2, s.c3.b3⟩,
   ⟨s.c1.b0, s.c2.b1, s.c3.b2, s.c0.b3⟩,
   ⟨s.c2.b0, s.c3.b1, s.c0.b2, s.c1.b3⟩,
   ⟨s.c3.b0, s.c0.b1, s.c1.b2, s.c2.b3⟩⟩

/-- Each column multiplied on the left by M (R164). -/
def mixColumns (s : Block) : Block := s.mapColumns matrixM.apply

/-- Every byte substituted via INVSBOX (R165). -/
def invSubBytes (s : Block) : Block := s.mapColumns (Word.map invSbox)

/-- Row `r` rotated right by `r`: `s'[r,c] = s[r,(c-r) mod 4]` (R166). -/
def invShiftRows (s : Block) : Block :=
  ⟨⟨s.c0.b0, s.c3.b1, s.c2.b2, s.c1.b3⟩,
   ⟨s.c1.b0, s.c0.b1, s.c3.b2, s.c2.b3⟩,
   ⟨s.c2.b0, s.c1.b1, s.c0.b2, s.c3.b3⟩,
   ⟨s.c3.b0, s.c2.b1, s.c1.b2, s.c0.b3⟩⟩

/-- Each column multiplied on the left by MINV (R167). -/
def invMixColumns (s : Block) : Block := s.mapColumns matrixMinv.apply

/-- Round key `k` of a schedule. -/
def roundKey (rk : List Block) (k : Nat) : Block := rk.getD k .zero

/-- The round count of a schedule: the number of round keys minus one (R173). -/
def lastRound (rk : List Block) : Nat := rk.length - 1

/-- One main round with round key `k`: substitute, shift rows, mix columns, key XOR (R168). -/
def mainRound (rk : List Block) (s : Block) (k : Nat) : Block :=
  addRoundKey (mixColumns (shiftRows (subBytes s))) (roundKey rk k)

/-- The final round: no column mix (R168). -/
def finalRound (rk : List Block) (s : Block) : Block :=
  addRoundKey (shiftRows (subBytes s)) (roundKey rk (lastRound rk))

/-- The State after state 0 and main rounds 1..r of R168. -/
def afterRounds (rk : List Block) (block : Block) : Nat → Block
  | 0 => addRoundKey block (roundKey rk 0)
  | r + 1 => mainRound rk (afterRounds rk block r) (r + 1)

/-- The forward transform (R168): state 0, main rounds 1..R-1, the final round R. -/
def encryptBlock (block : Block) (rk : List Block) : Block :=
  finalRound rk (afterRounds rk block (lastRound rk - 1))

/-- A main round undone: key XOR, inverse mix, inverse row shift, inverse substitution (R169; 90_conflicts.md C3). -/
def invMainRound (rk : List Block) (s : Block) (k : Nat) : Block :=
  invSubBytes (invShiftRows (invMixColumns (addRoundKey s (roundKey rk k))))

/-- The final round undone (R169). -/
def invFinalRound (rk : List Block) (s : Block) : Block :=
  invSubBytes (invShiftRows (addRoundKey s (roundKey rk (lastRound rk))))

/-- Main rounds r, r-1, …, 1 undone, then state 0 (R169). -/
def undoRounds (rk : List Block) : Nat → Block → Block
  | 0, s => addRoundKey s (roundKey rk 0)
  | r + 1, s => undoRounds rk r (invMainRound rk s (r + 1))

/-- The inverse transform (R169). -/
def decryptBlock (block : Block) (rk : List Block) : Block :=
  undoRounds rk (lastRound rk - 1) (invFinalRound rk block)

end Sys2Proof.Machine
end

