-- ==== Sys2Proof/Machine/KeySchedule.lean ====
section
/-! DEFINITION. The key schedule generator, as pure functions (spec/42_key_schedule.md R140 to R146). -/

namespace Sys2Proof.Machine

/-- The key lengths AESCORE accepts (R140, spec/10_state.md R22). -/
def keyLengthValid (n : Nat) : Bool := n == 16 || n == 24 || n == 32

/-- The round count R = Nk + 6 with Nk = L / 4, for a key of `L` bytes (R140). -/
def roundsOf (L : Nat) : Nat := L / 4 + 6

/-- The word's bytes rotated left by one position (R142). -/
def rotWord (w : Word) : Word := ⟨w.b1, w.b2, w.b3, w.b0⟩

/-- Each byte substituted via the forward table (R143). -/
def subWord (w : Word) : Word := w.map sbox

/-- The round constant, XORed into the first byte only (R144). -/
def addRoundConstant (rc : Byte) (w : Word) : Word := ⟨w.b0 ^^^ rc, w.b1, w.b2, w.b3⟩

/-- The round constant of the `j + 1`-th use: `xtime` applied `j` times to 0x01 (R144; the 0x01 is PRESUMED, assumption 6). -/
def roundConstant : Nat → Byte
  | 0 => 0x01#8
  | j + 1 => xtime (roundConstant j)

/-- The transformation of `w[i-1]` for word index `i` (R145). -/
def transformWord (nk i : Nat) (rc : Byte) (t : Word) : Word :=
  if i % nk = 0 then addRoundConstant rc (subWord (rotWord t))
  else if nk > 6 ∧ i % nk = 4 then subWord t
  else t

/-- The loop of R145 for `n` more words, from word index `i`. `words` holds the words so far, the latest first, so that
`w[i-1]` is its head and `w[i-Nk]` its entry `Nk - 1`. -/
def expandLoop (nk : Nat) : Nat → Nat → Byte → List Word → List Word
  | 0, _, _, words => words
  | n + 1, i, rc, words =>
    let w := (words.getD (nk - 1) .zero).xor (transformWord nk i rc (words.headD .zero))
    expandLoop nk n (i + 1) (if i % nk = 0 then xtime rc else rc) (w :: words)

/-- The words `w[0] .. w[W-1]` of a key, W = 4·(R+1) (R140, R145). -/
def expandWords (key : List Byte) : List Word :=
  let nk := key.length / 4
  (expandLoop nk (4 * (roundsOf key.length + 1) - nk) nk (roundConstant 0) (wordsOf nk key).reverse).reverse

/-- Consecutive groups of four words: round key `k` is words `4k .. 4k+3` (R146). -/
def groupWords : List Word → List Block
  | a :: b :: c :: d :: rest => ⟨a, b, c, d⟩ :: groupWords rest
  | _ => []

/-- The R + 1 round keys of a key of 16, 24 or 32 bytes (R145, R146). -/
def expandKey (key : List Byte) : List Block := groupWords (expandWords key)

end Sys2Proof.Machine
end

