-- ==== Sys2Proof/Machine/Cbc.lean ====
section
/-! DEFINITION. Padding and CBC chaining, as pure functions (spec/44_cbc_mode.md R190 to R193). -/

namespace Sys2Proof.Machine

/-- The padding length N = 16 - (len mod 16), in 1..16 (R190). -/
def padLength (len : Nat) : Nat := 16 - len % 16

/-- `pad(m)`: N copies of the byte N appended (R190). -/
def pad (m : List Byte) : List Byte :=
  m ++ List.replicate (padLength m.length) (BitVec.ofNat 8 (padLength m.length))

/-- `unpad(p)`, for `p` of a positive length that is a multiple of 16 (R191). -/
def unpad (p : List Byte) : Except ErrorKind (List Byte) :=
  let last := p.getD (p.length - 1) 0x00#8
  let n := last.toNat
  if n < 1 ∨ n > 16 then .error .invalidPadding
  else if (p.drop (p.length - n)).all (· == last) then .ok (p.take (p.length - n))
  else .error .invalidPadding

/-- The chaining loop of R192: each block is XORed with the ciphertext block before it (the IV for block 0), then transformed. -/
def cbcEncrypt (rk : List Block) : Block → List Block → List Block
  | _, [] => []
  | chain, p :: ps =>
    let c := encryptBlock (p.xor chain) rk
    c :: cbcEncrypt rk c ps

/-- The chaining loop of R193: each block is inverse-transformed, then XORed with the ciphertext block before it. -/
def cbcDecrypt (rk : List Block) : Block → List Block → List Block
  | _, [] => []
  | chain, c :: cs => (decryptBlock c rk).xor chain :: cbcDecrypt rk c cs

/-- `encryptMessage(plaintext, key, iv)` (R192). -/
def encryptMessage (plaintext key : List Byte) (iv : Block) : Except ErrorKind (List Byte) :=
  if keyLengthValid key.length then
    let p := pad plaintext
    .ok (bytesOf (cbcEncrypt (expandKey key) iv (blocksOf (p.length / 16) p)))
  else .error .invalidKeyLength

/-- `decryptMessage(ciphertext, key, iv)` (R193): the key length first, then the ciphertext length, then the padding. -/
def decryptMessage (ciphertext key : List Byte) (iv : Block) : Except ErrorKind (List Byte) :=
  if keyLengthValid key.length then
    if ciphertext.length = 0 ∨ ciphertext.length % 16 ≠ 0 then .error .invalidCiphertextLength
    else unpad (bytesOf (cbcDecrypt (expandKey key) iv (blocksOf (ciphertext.length / 16) ciphertext)))
  else .error .invalidKeyLength

end Sys2Proof.Machine
end

