-- ==== Sys2Proof/Machine/Memory.lean ====
section
/-! DEFINITION. The operations on a buffer, IBUF or OBUF (spec/10_state.md R25, R26): read a byte, write a byte, fill it with a byte sequence.
Each keeps the canonical form of `Memory.wf` (proved in Sys2Proof/Laws/Memory.lean). -/

namespace Sys2Proof.Machine

/-- The byte at index `a`. -/
def Memory.read : Memory → Nat → Byte
  | [], _ => unlistedByte
  | (k, b) :: m, a => if a = k then b else Memory.read m a

/-- The buffer after byte `v` is written at index `a`. -/
def Memory.write : Memory → Nat → Byte → Memory
  | [], a, v => if v = unlistedByte then [] else [(a, v)]
  | (k, b) :: m, a, v =>
    if a < k then (if v = unlistedByte then (k, b) :: m else (a, v) :: (k, b) :: m)
    else if a = k then (if v = unlistedByte then m else (a, v) :: m)
    else (k, b) :: Memory.write m a v

/-- The buffer that holds a byte sequence from index `start` and 0x00 everywhere else. -/
def Memory.ofBytes (start : Nat) : List Byte → Memory
  | [] => []
  | b :: bs => if b = unlistedByte then Memory.ofBytes (start + 1) bs else (start, b) :: Memory.ofBytes (start + 1) bs

/-- The bytes at `start, start + 1, …, start + n - 1`. -/
def Memory.readBytes (m : Memory) : Nat → Nat → List Byte
  | _, 0 => []
  | start, n + 1 => m.read start :: Memory.readBytes m (start + 1) n

end Sys2Proof.Machine
end

