-- ==== Sys2Proof/Machine/Flags.lean ====
section
/-! DEFINITION. The two flags of STATUS (spec/10_state.md R30) and the values of ERR (spec/30_encoding.md R84). AESCORE has no
other flag: there are no arithmetic condition codes (R30). -/

namespace Sys2Proof.Machine

/-- STATUS.KVALID, bit 0 (R30). -/
def State.kvalid (s : State) : Bool := s.status.getLsbD 0

/-- STATUS.ERRF, bit 1 (R30). -/
def State.errf (s : State) : Bool := s.status.getLsbD 1

/-- STATUS with KVALID written and every other bit kept (R30). -/
def withKvalid (status : Byte) (b : Bool) : Byte := (status &&& 0xFE#8) ||| (if b then 0x01#8 else 0x00#8)

/-- STATUS with ERRF written and every other bit kept (R30). -/
def withErrf (status : Byte) (b : Bool) : Byte := (status &&& 0xFD#8) ||| (if b then 0x02#8 else 0x00#8)

/-- The value of ERR for an error (R84, R220). -/
def ErrorKind.code : ErrorKind → Byte
  | .invalidKeyLength => 0x01#8
  | .invalidBlockLength => 0x02#8
  | .invalidCiphertextLength => 0x03#8
  | .invalidPadding => 0x04#8
  | .noSchedule => 0x81#8
  | .messageTooLong => 0x82#8
  | .illegalCommand => 0x83#8

end Sys2Proof.Machine
end

