-- ==== Sys2Proof/Machine/Operands.lean ====
section
/-! DEFINITION. Every operand form: the locations the host addresses (the map of spec/20_memory.md R51, with the access type of
each) and the implicit operands of the commands (spec/30_encoding.md R82, spec/20_memory.md R61). -/

namespace Sys2Proof.Machine

/-- What an address of the host port names (R51). -/
inductive Location where
  | cmd
  | status
  | err
  | keylen
  | ilen (k : Nat)
  | olen (k : Nat)
  | rounds
  | iv (j : Nat)
  | key (j : Nat)
  | rk (j : Nat)
  | ibuf (j : Nat)
  | obuf (j : Nat)
  | reserved
deriving DecidableEq, Repr

/-- The access types of the map (R51). -/
inductive Access where
  | writeOnly
  | readOnly
  | readWrite
  | none
deriving DecidableEq, Repr

/-- The first address of IBUF (R51). -/
def ibufBase : Nat := 0x10000000

/-- The first address of OBUF (R51). -/
def obufBase : Nat := 0x20000000

/-- The location at address `n`, for an instance with `msgMax` bytes of IBUF (R51). -/
def locateNat (msgMax n : Nat) : Location :=
  if n = 0x0 then .cmd
  else if n = 0x1 then .status
  else if n = 0x2 then .err
  else if n = 0x3 then .keylen
  else if n < 0x8 then .ilen (n - 0x4)
  else if n < 0xC then .olen (n - 0x8)
  else if n = 0xC then .rounds
  else if n < 0x10 then .reserved
  else if n < 0x20 then .iv (n - 0x10)
  else if n < 0x40 then .key (n - 0x20)
  else if n < 0x100 then .reserved
  else if n < 0x1F0 then .rk (n - 0x100)
  else if n < ibufBase then .reserved
  else if n < ibufBase + msgMax then .ibuf (n - ibufBase)
  else if n < obufBase then .reserved
  else if n < obufBase + msgMax + Config.outputExtra then .obuf (n - obufBase)
  else .reserved

/-- The location an address names (R51). -/
def locate (msgMax : Nat) (a : Addr) : Location := locateNat msgMax a.toNat

/-- The address of a location within its range (R51). `reserved` is many addresses and no name, so it is never in range, and no well-formed
line reaches its arm here (DESIGN CHOICE, assumption 12). -/
def Location.address : Location → Addr
  | .cmd => 0x00#32
  | .status => 0x01#32
  | .err => 0x02#32
  | .keylen => 0x03#32
  | .ilen k => BitVec.ofNat 32 (0x04 + k)
  | .olen k => BitVec.ofNat 32 (0x08 + k)
  | .rounds => 0x0C#32
  | .iv j => BitVec.ofNat 32 (0x10 + j)
  | .key j => BitVec.ofNat 32 (0x20 + j)
  | .rk j => BitVec.ofNat 32 (0x100 + j)
  | .ibuf j => BitVec.ofNat 32 (ibufBase + j)
  | .obuf j => BitVec.ofNat 32 (obufBase + j)
  | .reserved => 0x0D#32

/-- The access type of a location (R51). -/
def Location.access : Location → Access
  | .cmd => .writeOnly
  | .status => .readOnly
  | .err => .readOnly
  | .keylen => .readWrite
  | .ilen _ => .readWrite
  | .olen _ => .readOnly
  | .rounds => .readOnly
  | .iv _ => .readWrite
  | .key _ => .readWrite
  | .rk _ => .readOnly
  | .ibuf _ => .readWrite
  | .obuf _ => .readOnly
  | .reserved => .none

/-- Whether the map gives a location that index, for an instance with `msgMax` bytes of IBUF (R51): the names of spec/30_encoding.md R86. -/
def Location.inRange (msgMax : Nat) : Location → Bool
  | .cmd => true
  | .status => true
  | .err => true
  | .keylen => true
  | .ilen k => decide (k < 4)
  | .olen k => decide (k < 4)
  | .rounds => true
  | .iv j => decide (j < 16)
  | .key j => decide (j < 32)
  | .rk j => decide (j < 240)
  | .ibuf j => decide (j < msgMax)
  | .obuf j => decide (j < msgMax + Config.outputExtra)
  | .reserved => false

/-- The byte a location holds (0x00 for CMD, which holds nothing, and for a reserved address). -/
def State.peek (s : State) : Location → Byte
  | .cmd => 0x00#8
  | .status => s.status
  | .err => s.err
  | .keylen => s.keylen
  | .ilen k => lenByte s.ilen k
  | .olen k => lenByte s.olen k
  | .rounds => s.rounds
  | .iv j => fileRead s.iv j
  | .key j => fileRead s.key j
  | .rk j => fileRead s.rk j
  | .ibuf j => s.ibuf.read j
  | .obuf j => s.obuf.read j
  | .reserved => 0x00#8

/-- The state after a byte is stored in a location of access RW; a location of another access stores nothing. -/
def State.poke (s : State) (v : Byte) : Location → State
  | .cmd => s
  | .status => s
  | .err => s
  | .keylen => { s with keylen := v }
  | .ilen k => { s with ilen := setLenByte s.ilen k v }
  | .olen _ => s
  | .rounds => s
  | .iv j => { s with iv := fileWrite s.iv j v }
  | .key j => { s with key := fileWrite s.key j v }
  | .rk _ => s
  | .ibuf j => { s with ibuf := s.ibuf.write j v }
  | .obuf _ => s
  | .reserved => s

/-- The key, KEY[0..KEYLEN-1] (R21, R61). -/
def State.keyBytes (s : State) : List Byte := s.key.toList.take s.keylen.toNat

/-- The IV, IV[0..15], as the block the chain starts with (R23, R61). -/
def State.ivBlock (s : State) : Block := Block.ofBytes s.iv.toList

/-- The input message, IBUF[0..ILEN-1] (R24, R25, R61). -/
def State.message (s : State) : List Byte := s.ibuf.readBytes 0 s.ilen.toNat

/-- The input block, IBUF[0..15] (R61, R171). -/
def State.inputBlock (s : State) : Block := Block.ofBytes (s.ibuf.readBytes 0 16)

/-- The schedule in RK: round keys 0..ROUNDS, round key `k` at RK[16k..16k+15] (R28, R171). With a ROUNDS
above 14, which no run reaches, bytes past RK[239] read as 0x00 (DESIGN CHOICE, assumption 10). -/
def State.schedule (s : State) : List Block := blocksOf (s.rounds.toNat + 1) s.rk.toList

end Sys2Proof.Machine
end

