-- ==== Sys2Proof/Machine/Ops.lean ====
section
/-! DEFINITION. The operations the commands and the port share: how a command ends, in error (`State.fail`, the one place where an
error is taken, spec/60_exceptions.md R221) or in success (`State.complete`, R222); the key-loading procedure (spec/42_key_schedule.md
R147); the two accesses of the port (spec/20_memory.md R52, R53); the reset transition (spec/70_reset_and_hazards.md R250).
There is no return from an error: nothing is saved and nothing needs clearing (R224). -/

namespace Sys2Proof.Machine

/-- `Fail(code)`: OBUF all 0x00, OLEN 0, ERR the code, ERRF 1; nothing else changes (R221). -/
def State.fail (e : ErrorKind) (s : State) : State :=
  { s with obuf := [], olen := 0#32, err := e.code, status := withErrf s.status true }

/-- `Complete(out)`: OBUF holds `out` and 0x00 beyond it, OLEN its length, ERR 0x00, ERRF 0 (R222). -/
def State.complete (out : List Byte) (s : State) : State :=
  { s with obuf := Memory.ofBytes 0 out, olen := BitVec.ofNat 32 out.length, err := 0x00#8, status := withErrf s.status false }

/-- A command's end: `Complete` with its result, or `Fail` with its error. -/
def State.finish (result : Except ErrorKind (List Byte)) (s : State) : State :=
  match result with
  | .ok out => s.complete out
  | .error e => s.fail e

/-- RK all 0x00, ROUNDS 0, KVALID 0: what a bad key length leaves (R147). -/
def State.clearSchedule (s : State) : State :=
  { s with rk := Vector.replicate 240 0x00#8, rounds := 0x00#8, status := withKvalid s.status false }

/-- RK the expansion of the key and 0x00 beyond it, ROUNDS its round count, KVALID 1 (R147). -/
def State.storeSchedule (s : State) : State :=
  { s with
    rk := fileOf 240 (bytesOf (expandKey s.keyBytes)),
    rounds := BitVec.ofNat 8 (roundsOf s.keylen.toNat),
    status := withKvalid s.status true }

/-- `LoadSchedule()`, shared by EXPANDKEY, ENCMSG and DECMSG: `true` is `ok`, `false` is `bad` (R147). -/
def loadSchedule (s : State) : Bool × State :=
  if keyLengthValid s.keylen.toNat then (true, s.storeSchedule) else (false, s.clearSchedule)

/-- The byte a host read gives: the register's value where access is RO or RW, 0x00 for CMD and reserved addresses (R52). -/
def memRead (s : State) (a : Addr) : Byte :=
  match (locate s.msgMax a).access with
  | .readOnly => s.peek (locate s.msgMax a)
  | .readWrite => s.peek (locate s.msgMax a)
  | .writeOnly => 0x00#8
  | .none => 0x00#8

/-- A host write to an address other than CMD: a register of access RW takes the byte, every other write is ignored (R53, R54). -/
def memWrite (s : State) (a : Addr) (v : Byte) : State :=
  match (locate s.msgMax a).access with
  | .readWrite => s.poke v (locate s.msgMax a)
  | .readOnly => s
  | .writeOnly => s
  | .none => s

/-- The state with one more transaction in its trace (assumption 3). -/
def State.record (e : PortEvent) (s : State) : State := { s with trace := e :: s.trace }

/-- The reset transition: every register and buffer at the value of R37; the parameter MSG_MAX and the host's side stay (R250; DESIGN CHOICE, assumption 4). -/
def State.resetEvent (s : State) : State :=
  { State.reset with msgMax := s.msgMax, pending := s.pending, trace := s.trace }

end Sys2Proof.Machine
end

