-- ==== Sys2Proof/Machine/BlockCommands.lean ====
section
/-! DEFINITION. ENCBLK and DECBLK, the commands of the block transform engine (spec/43_block_transform.md R171, R172). -/

namespace Sys2Proof.Machine

/-- What the two block commands share: ILEN must be 16, then RK must hold a schedule, then `transform` of the input block is the
result (R171, R172; the order of the checks: spec/60_exceptions.md R223). -/
def blockCommand (transform : Block → List Block → Block) (s : State) : State :=
  if s.ilen ≠ 16#32 then s.fail .invalidBlockLength
  else if s.kvalid = false then s.fail .noSchedule
  else s.complete (transform s.inputBlock s.schedule).toBytes

/-- ENCBLK (R171). -/
def execEncblk (s : State) : Host.Outcome State Fault Refusal := .next (blockCommand encryptBlock s)

/-- DECBLK (R172). -/
def execDecblk (s : State) : Host.Outcome State Fault Refusal := .next (blockCommand decryptBlock s)

end Sys2Proof.Machine
end

