-- ==== Sys2Proof/Machine/KeyCommands.lean ====
section
/-! DEFINITION. EXPANDKEY, the command of the key schedule generator (spec/42_key_schedule.md R147). -/

namespace Sys2Proof.Machine

/-- EXPANDKEY: load the schedule; a bad key length raises InvalidKeyLength, else an empty result (R147). -/
def execExpandkey (s : State) : Host.Outcome State Fault Refusal :=
  match loadSchedule s with
  | (true, s') => .next (s'.complete [])
  | (false, s') => .next (s'.fail .invalidKeyLength)

end Sys2Proof.Machine
end

