-- ==== Sys2Proof/Machine/MessageCommands.lean ====
section
/-! DEFINITION. ENCMSG and DECMSG, the commands of the CBC mode wrapper (spec/44_cbc_mode.md R194, R195). -/

namespace Sys2Proof.Machine

/-- What the two message commands share: ILEN must be at most MSG_MAX, then the key is expanded into RK, then `body` is the result or
the error (R194, R195; the order of the checks: spec/60_exceptions.md R223). -/
def messageCommand (body : State → Except ErrorKind (List Byte)) (s : State) : State :=
  if s.ilen.toNat > s.msgMax then s.fail .messageTooLong
  else
    match loadSchedule s with
    | (true, s') => s'.finish (body s')
    | (false, s') => s'.fail .invalidKeyLength

/-- ENCMSG (R194). -/
def execEncmsg (s : State) : Host.Outcome State Fault Refusal :=
  .next (messageCommand (fun s => encryptMessage s.message s.keyBytes s.ivBlock) s)

/-- The body of DECMSG: the ciphertext length is checked before IBUF is read (R195). -/
def decmsgBody (s : State) : Except ErrorKind (List Byte) :=
  if s.ilen = 0#32 ∨ s.ilen.toNat % 16 ≠ 0 then .error .invalidCiphertextLength
  else decryptMessage s.message s.keyBytes s.ivBlock

/-- DECMSG (R195). -/
def execDecmsg (s : State) : Host.Outcome State Fault Refusal := .next (messageCommand decmsgBody s)

end Sys2Proof.Machine
end

