-- ==== Sys2Proof/Machine/Dispatch.lean ====
section
/-! DEFINITION. The dispatch of a command to its meaning, one arm per row of spec/opcode_table.json. -/

namespace Sys2Proof.Machine

def exec (i : Instr) (s : State) : Host.Outcome State Fault Refusal :=
  match i with
  | .expandkey => Sys2Proof.Machine.execExpandkey s
  | .encblk => Sys2Proof.Machine.execEncblk s
  | .decblk => Sys2Proof.Machine.execDecblk s
  | .encmsg => Sys2Proof.Machine.execEncmsg s
  | .decmsg => Sys2Proof.Machine.execDecmsg s

end Sys2Proof.Machine
end

