-- ==== Sys2Proof/Machine/Port.lean ====
section
/-! DEFINITION. The host port: what one transaction or event does (spec/20_memory.md R52, R53, R58; spec/10_state.md R32; spec/70_reset_and_hazards.md R250). -/

namespace Sys2Proof.Machine

/-- An opcode that names no command: its only effect is to raise IllegalCommand (spec/30_encoding.md R83). -/
def execIllegal (s : State) : Host.Outcome State Fault Refusal := .next (s.fail .illegalCommand)

/-- A byte written to CMD: the command it encodes runs to its end (R32, R53). -/
def runCommand (op : Byte) (s : State) : Host.Outcome State Fault Refusal :=
  match decode op with
  | .ok i => exec i s
  | .error _ => execIllegal s

/-- A host write transaction (R53). -/
def hostWrite (a : Addr) (v : Byte) (s : State) : Host.Outcome State Fault Refusal :=
  match locate s.msgMax a with
  | .cmd => runCommand v s
  | _ => .next (memWrite s a v)

/-- One event at the port, on a state whose `pending` is what follows it. `move` performs its read and leaves its write, with the
byte read, as the next transaction, so that every step is one transaction (spec/30_encoding.md R87, R58). -/
def perform (op : HostOp) (s : State) : Host.Outcome State Fault Refusal :=
  match op with
  | .read a => .next (s.record (.read a (memRead s a)))
  | .write a v => hostWrite a v (s.record (.write a v))
  | .move src dst =>
    .next { s.record (.read src (memRead s src)) with pending := .write dst (memRead s src) :: s.pending }
  | .reset => .next s.resetEvent

/-- One step of the machine: the host's next transaction or event. With none pending the core waits and keeps all its state
(spec/60_exceptions.md R229, R250). -/
def hostStep (s : State) : Host.Outcome State Fault Refusal :=
  match s.pending with
  | [] => .next s
  | op :: rest => perform op { s with pending := rest }

/-- The state in which the host's next transaction is a write of `op` to CMD (R32). -/
def State.withCommand (s : State) (op : Byte) : State :=
  { s with pending := .write Location.cmd.address op :: s.pending }

end Sys2Proof.Machine
end

