-- ==== Sys2Proof/Machine/Step.lean ====
section
/-! DEFINITION. One step of the machine, for a legal MSG_MAX (spec/00_scope.md R6, spec/93_implementation_defined.md I9). -/

namespace Sys2Proof.Machine

def step (s : State) : Host.Outcome State Fault Refusal :=
  if msgMaxLegal s.msgMax then hostStep s else .refused .msgMaxOutOfRange

/-- AESCORE fetches nothing (spec/10_state.md R35): a command is the byte of a write to CMD, so the word is placed as the host's next
transaction (assumption 2). -/
def State.withFetchWord (s : State) (nbits w : Nat) : State := s.withCommand (tableByte nbits w)

end Sys2Proof.Machine
end

