-- ==== Sys2Proof/Machine/Script.lean ====
section
/-! DEFINITION. The host-script notation: its lines, their expansion into transactions and the written form of a transaction
(spec/30_encoding.md R86, R87). It has no hardware meaning beyond the expansion (spec/92_eei_decisions.md D24). -/

namespace Sys2Proof.Machine

/-- An `<addr>` of a script line: a hex address, whatever it names or reserves, or a register name with its index (R86). -/
inductive ScriptAddr where
  | hex (a : Addr)
  | name (l : Location)
deriving DecidableEq, Repr

/-- A hex address is any address of the port; a name is one that the map gives (R86, spec/20_memory.md R51). -/
def ScriptAddr.wf (msgMax : Nat) : ScriptAddr → Bool
  | .hex _ => true
  | .name l => l.inRange msgMax

/-- The address that an `<addr>` stands for (R86). -/
def ScriptAddr.address : ScriptAddr → Addr
  | .hex a => a
  | .name l => l.address

/-- A line of a host script (R86, R87). -/
inductive ScriptLine where
  | wr (a : ScriptAddr) (v : Byte)
  | rd (a : ScriptAddr)
  | command (i : Instr)
  | ldkey (h : List Byte)
  | ldiv (h : List Byte)
  | ldin (h : List Byte)
  | setilen (n : Nat)
  | rdst
  | rdolen
  | rdout (n : Nat)
  | rdrk (k : Nat)
  | movoi (n : Nat)
deriving DecidableEq, Repr

/-- The side conditions of a line, for an instance with `msgMax` bytes of IBUF (R86, R87); ILEN holds 32 bits (R24) and RK holds 15 round keys (R28).
The bounds of SETILEN, RDOUT, RDRK and MOVOI are DEDUCED (assumption 12). -/
def ScriptLine.wf (msgMax : Nat) : ScriptLine → Bool
  | .wr a _ => a.wf msgMax
  | .rd a => a.wf msgMax
  | .command _ => true
  | .ldkey h => decide (h.length ≤ 32)
  | .ldiv h => decide (h.length = 16)
  | .ldin h => decide (h.length ≤ msgMax)
  | .setilen n => decide (n < 2 ^ 32)
  | .rdst => true
  | .rdolen => true
  | .rdout n => decide (n ≤ msgMax + Config.outputExtra)
  | .rdrk k => decide (k < 15)
  | .movoi n => decide (n ≤ msgMax + Config.outputExtra)

/-- `WR X[j], h[j]` for j = `start`, `start + 1`, … in increasing order. -/
def writeRun (file : Nat → Location) : Nat → List Byte → List HostOp
  | _, [] => []
  | start, b :: bs => .write (file start).address b :: writeRun file (start + 1) bs

/-- `RD X[j]` for the `n` indexes from `start`, in increasing order. -/
def readRun (file : Nat → Location) : Nat → Nat → List HostOp
  | _, 0 => []
  | start, n + 1 => .read (file start).address :: readRun file (start + 1) n

/-- `RD OBUF[j]`, then `WR IBUF[j]` with the value read, for the `n` indexes from `start`. -/
def moveRun : Nat → Nat → List HostOp
  | _, 0 => []
  | start, n + 1 => .move (Location.obuf start).address (Location.ibuf start).address :: moveRun (start + 1) n

/-- The four writes of SETILEN (R87). -/
def setilenOps (n : Nat) : List HostOp :=
  writeRun .ilen 0 [BitVec.ofNat 8 (n % 256), BitVec.ofNat 8 (n / 256 % 256), BitVec.ofNat 8 (n / 65536 % 256),
    BitVec.ofNat 8 (n / 16777216)]

/-- The transactions of a line (R86, R87). -/
def ScriptLine.expand : ScriptLine → List HostOp
  | .wr a v => [.write a.address v]
  | .rd a => [.read a.address]
  | .command i => [.write Location.cmd.address (encode i)]
  | .ldkey h => writeRun .key 0 h ++ [.write Location.keylen.address (BitVec.ofNat 8 h.length)]
  | .ldiv h => writeRun .iv 0 h
  | .ldin h => writeRun .ibuf 0 h ++ setilenOps h.length
  | .setilen n => setilenOps n
  | .rdst => [.read Location.status.address, .read Location.err.address]
  | .rdolen => readRun .olen 0 4
  | .rdout n => readRun .obuf 0 n
  | .rdrk k => readRun .rk (16 * k) 16
  | .movoi n => moveRun 0 n ++ setilenOps n

/-- The transactions of a script, line after line. -/
def expandScript : List ScriptLine → List HostOp
  | [] => []
  | l :: ls => l.expand ++ expandScript ls

/-- The state in which a script is what the host does next. -/
def State.withScript (s : State) (script : List ScriptLine) : State := { s with pending := expandScript script ++ s.pending }

/-- One hex digit. -/
def hexDigit (n : Nat) : Char := ['0', '1', '2', '3', '4', '5', '6', '7', '8', '9', 'a', 'b', 'c', 'd', 'e', 'f'].getD n '0'

/-- The lowest `digits` hex digits of a number, the most significant first. -/
def hexDigits : Nat → Nat → List Char
  | 0, _ => []
  | digits + 1, n => hexDigits digits (n / 16) ++ [hexDigit (n % 16)]

/-- A transaction as R86 writes it: `W aaaaaaaa dd` or `R aaaaaaaa`. -/
def PortEvent.written : PortEvent → String
  | .write a v => String.ofList ("W ".toList ++ hexDigits 8 a.toNat ++ " ".toList ++ hexDigits 2 v.toNat)
  | .read a _ => String.ofList ("R ".toList ++ hexDigits 8 a.toNat)

end Sys2Proof.Machine
end

