-- ==== Sys2Proof/Safety.lean ====
section
/-! DEFINITION. What a good state and a safe run are: the invariants of spec/10_state.md R36 items 1 to 6, with the legality of MSG_MAX
(spec/00_scope.md R6) and the canonical form of the two buffers. -/

namespace Sys2Proof.Machine

/-- The values ERR takes (R36 item 2). -/
def errValues : List Byte := [0x00#8, 0x01#8, 0x02#8, 0x03#8, 0x04#8, 0x81#8, 0x82#8, 0x83#8]

/-- RK and ROUNDS hold the schedule of `key` (R36 item 4): its round keys from index 0, and 0x00 beyond them. -/
def State.HoldsSchedule (s : State) (key : List Byte) : Prop :=
  keyLengthValid key.length = true ∧ s.rounds = BitVec.ofNat 8 (roundsOf key.length) ∧
    s.rk = fileOf 240 (bytesOf (expandKey key))

/-- What holds after reset and after every transaction (R36). -/
structure State.Inv (s : State) : Prop where
  /-- MSG_MAX is legal (R6). -/
  legal : msgMaxLegal s.msgMax = true
  /-- Item 1: ERRF = 1 exactly when ERR ≠ 0x00. -/
  errf_iff : s.errf = true ↔ s.err ≠ 0x00#8
  /-- Item 1: STATUS bits 7:2 are 0. -/
  reserved_zero : s.status &&& 0xFC#8 = 0x00#8
  /-- Item 2. -/
  err_value : s.err ∈ errValues
  /-- Item 3: KVALID = 1 exactly when ROUNDS is 10, 12 or 14. -/
  kvalid_iff : s.kvalid = true ↔ (s.rounds = 10#8 ∨ s.rounds = 12#8 ∨ s.rounds = 14#8)
  /-- Item 3: otherwise ROUNDS = 0. -/
  rounds_zero : s.kvalid = false → s.rounds = 0#8
  /-- Item 4: with KVALID = 1, RK is the schedule of some key of a valid length. -/
  schedule : s.kvalid = true → ∃ key, s.HoldsSchedule key
  /-- Item 4: with KVALID = 0, RK is all 0x00. -/
  no_schedule : s.kvalid = false → s.rk = Vector.replicate 240 0x00#8
  /-- Item 5. -/
  olen_bound : s.olen.toNat ≤ s.msgMax + 16
  /-- Item 5: OBUF is 0x00 from index OLEN up. -/
  obuf_tail : ∀ j, s.olen.toNat ≤ j → s.obuf.read j = 0x00#8
  /-- Item 6: no partial result after an error. -/
  failed_empty : s.err ≠ 0x00#8 → s.olen = 0#32
  /-- IBUF is in canonical form and within its capacity. -/
  ibuf_wf : s.ibuf.wf s.msgMax = true
  /-- OBUF is in canonical form and within its capacity. -/
  obuf_wf : s.obuf.wf (s.msgMax + Config.outputExtra) = true

/-- What no command writes: the operands, MSG_MAX and the host's side (R36 item 7; spec/20_memory.md R61). -/
structure SameInputs (s t : State) : Prop where
  key : t.key = s.key
  keylen : t.keylen = s.keylen
  iv : t.iv = s.iv
  ilen : t.ilen = s.ilen
  ibuf : t.ibuf = s.ibuf
  msgMax : t.msgMax = s.msgMax
  pending : t.pending = s.pending
  trace : t.trace = s.trace

/-- The schedule as it stood: RK, ROUNDS and every bit of STATUS but ERRF. -/
structure SameSchedule (s t : State) : Prop where
  rk : t.rk = s.rk
  rounds : t.rounds = s.rounds
  status : t.status &&& 0xFD#8 = s.status &&& 0xFD#8

/-- What no host write touches: everything but KEY, KEYLEN, IV, ILEN, IBUF and the host's side (R36 item 7). -/
structure SameResults (s t : State) : Prop where
  obuf : t.obuf = s.obuf
  olen : t.olen = s.olen
  rk : t.rk = s.rk
  rounds : t.rounds = s.rounds
  status : t.status = s.status
  err : t.err = s.err
  msgMax : t.msgMax = s.msgMax

/-- What two runs of a command show alike: every register it writes, bit by bit (spec/30_encoding.md R82; STATUS bits 7:2 are no command's to write,
spec/10_state.md R30). -/
structure SameOutcome (t t' : State) : Prop where
  obuf : t'.obuf = t.obuf
  olen : t'.olen = t.olen
  rk : t'.rk = t.rk
  rounds : t'.rounds = t.rounds
  kvalid : t'.kvalid = t.kvalid
  errf : t'.errf = t.errf
  err : t'.err = t.err

/-- The result registers after a success with result `out` (spec/60_exceptions.md R222). -/
structure Succeeded (t : State) (out : List Byte) : Prop where
  err : t.err = 0x00#8
  errf : t.errf = false
  olen : t.olen.toNat = out.length
  result : ∀ j, j < out.length → t.obuf.read j = out.getD j 0x00#8
  beyond : ∀ j, out.length ≤ j → t.obuf.read j = 0x00#8

/-- The result registers after a failure (spec/60_exceptions.md R221). -/
structure Failed (t : State) (code : Byte) : Prop where
  err : t.err = code
  errf : t.errf = true
  olen : t.olen = 0#32
  obuf : ∀ j, t.obuf.read j = 0x00#8

/-- A safe start: the machine goes on for ever, with no fault and no refusal. -/
def State.RunsOn (s : State) : Prop := ∀ n, ∃ t, Sys2Proof.core.run n s = .next t

end Sys2Proof.Machine
end

