-- ==== Sys2Proof/Certificates/Slice0/Obligations.lean ====
section
/-! DEFINITION. The statements for the provers, one `def Obligations.<Name> : Prop` each. They are about the machine, for every state
(so for every MSG_MAX). The words `s.pending` and `s.trace` are the model's own way to hold the host's transactions (assumptions 2 and 3). -/

open Sys2Proof Sys2Proof.Machine

/-! ### Encoding and the step -/

/-- R81: the five opcodes, written out bit by bit, and the match and mask of every row of the decoder's table. -/
def Obligations.OpcodeBytesDecodeToTheirCommands : Prop :=
  decode 0b00000001#8 = .ok .expandkey ∧ decode 0b00000010#8 = .ok .encblk ∧ decode 0b00000011#8 = .ok .decblk ∧
  decode 0b00000100#8 = .ok .encmsg ∧ decode 0b00000101#8 = .ok .decmsg ∧
  opcodeTable.map OpcodeRow.instr = [.expandkey, .encblk, .decblk, .encmsg, .decmsg] ∧
  ∀ r ∈ opcodeTable, r.mask = 0xFF#8 ∧ r.pattern = encode r.instr

/-- R80, R81: a byte decodes to a command exactly when it is that command's opcode, and the table's word decodes alike. -/
def Obligations.DecodeAndEncodeAgree : Prop :=
  (∀ (b : Byte) (i : Instr), decode b = .ok i ↔ b = encode i) ∧
  ∀ i : Instr, decodeTableWord 8 (encode i).toNat = some i

/-- R83: any of the 251 illegal opcodes, written to CMD, has the one effect of raising IllegalCommand. -/
def Obligations.IllegalOpcodeRaisesIllegalCommand : Prop :=
  ∀ (s : State) (op : Byte), (op.toNat = 0 ∨ 6 ≤ op.toNat) →
    ∃ t, runCommand op s = .next t ∧ Failed t 0x83#8 ∧ SameSchedule s t ∧ SameInputs s t

/-- A byte written to CMD is run as a command (R32, R53); where it is a command's opcode, step is exec of that command, with the transaction taken off the host's list and
noted in the trace (assumptions 2 and 3). -/
def Obligations.StepRunsTheDecodedCommand : Prop :=
  ∀ (s : State) (op : Byte) (rest : List HostOp), msgMaxLegal s.msgMax = true → s.pending = .write 0x00000000#32 op :: rest →
    step s = runCommand op { s with pending := rest, trace := .write 0x00000000#32 op :: s.trace } ∧
    ∀ i, decode op = .ok i → step s = exec i { s with pending := rest, trace := .write 0x00000000#32 op :: s.trace }

/-- The word that withFetchWord places is what the very next step runs (assumption 2: the model's way to load a program). -/
def Obligations.PlacedCommandRunsNext : Prop :=
  ∀ (s : State) (i : Instr), msgMaxLegal s.msgMax = true →
    step (s.withFetchWord 8 (encode i).toNat) = exec i { s with trace := .write 0x00000000#32 (encode i) :: s.trace }

/-- With no transaction from the host the core is idle and keeps all its state (R229); that such a moment is a step is the model's (assumption 2). -/
def Obligations.IdleCoreKeepsItsState : Prop :=
  ∀ s : State, msgMaxLegal s.msgMax = true → s.pending = [] → step s = .next s

/-- An MSG_MAX outside its range is refused, in every state (R6; 93_implementation_defined.md I9 says `refuse`; assumption 5). -/
def Obligations.IllegalMsgMaxIsRefused : Prop :=
  ∀ s : State, (s.msgMax < 16 ∨ 0x0FFFFFF0 < s.msgMax) → step s = .refused .msgMaxOutOfRange

/-! ### The host port -/

/-- R51: the address map, line by line, with its access types. -/
def Obligations.AddressMapIsTheSpecs : Prop :=
  ∀ (m : Nat) (a : Addr), msgMaxLegal m = true →
    (a.toNat = 0 → locate m a = .cmd) ∧ (a.toNat = 1 → locate m a = .status) ∧ (a.toNat = 2 → locate m a = .err) ∧
    (a.toNat = 3 → locate m a = .keylen) ∧
    (4 ≤ a.toNat → a.toNat ≤ 7 → locate m a = .ilen (a.toNat - 4)) ∧
    (8 ≤ a.toNat → a.toNat ≤ 0xB → locate m a = .olen (a.toNat - 8)) ∧
    (a.toNat = 0xC → locate m a = .rounds) ∧
    (0xD ≤ a.toNat → a.toNat ≤ 0xF → locate m a = .reserved) ∧
    (0x10 ≤ a.toNat → a.toNat ≤ 0x1F → locate m a = .iv (a.toNat - 0x10)) ∧
    (0x20 ≤ a.toNat → a.toNat ≤ 0x3F → locate m a = .key (a.toNat - 0x20)) ∧
    (0x40 ≤ a.toNat → a.toNat ≤ 0xFF → locate m a = .reserved) ∧
    (0x100 ≤ a.toNat → a.toNat ≤ 0x1EF → locate m a = .rk (a.toNat - 0x100)) ∧
    (0x1F0 ≤ a.toNat → a.toNat ≤ 0x0FFFFFFF → locate m a = .reserved) ∧
    (0x10000000 ≤ a.toNat → a.toNat ≤ 0x10000000 + m - 1 → locate m a = .ibuf (a.toNat - 0x10000000)) ∧
    (0x10000000 + m ≤ a.toNat → a.toNat ≤ 0x1FFFFFFF → locate m a = .reserved) ∧
    (0x20000000 ≤ a.toNat → a.toNat ≤ 0x20000000 + m + 15 → locate m a = .obuf (a.toNat - 0x20000000)) ∧
    (0x20000000 + m + 16 ≤ a.toNat → locate m a = .reserved) ∧
    Location.cmd.access = .writeOnly ∧ Location.status.access = .readOnly ∧ Location.err.access = .readOnly ∧
    Location.keylen.access = .readWrite ∧ Location.rounds.access = .readOnly ∧ Location.reserved.access = .none ∧
    ∀ j, (Location.ilen j).access = .readWrite ∧ (Location.olen j).access = .readOnly ∧ (Location.iv j).access = .readWrite ∧
      (Location.key j).access = .readWrite ∧ (Location.rk j).access = .readOnly ∧ (Location.ibuf j).access = .readWrite ∧
      (Location.obuf j).access = .readOnly

/-- R51, R86: the address written for a location names that location, and every address that is not reserved is the address of
the one location it names. -/
def Obligations.LocationAddressesRoundTrip : Prop :=
  ∀ m : Nat, msgMaxLegal m = true →
    (∀ l : Location, l.inRange m = true → locate m l.address = l) ∧
    ∀ a : Addr, locate m a ≠ .reserved → (locate m a).inRange m = true ∧ (locate m a).address = a

/-- R52: what a host read gives, and that it changes nothing of AESCORE's state. -/
def Obligations.HostReadGivesTheRegister : Prop :=
  ∀ (s : State) (a : Addr) (rest : List HostOp), msgMaxLegal s.msgMax = true → s.pending = .read a :: rest →
    step s = .next { s with pending := rest, trace := .read a (memRead s a) :: s.trace } ∧
    ((locate s.msgMax a).access = .readOnly ∨ (locate s.msgMax a).access = .readWrite →
      memRead s a = s.peek (locate s.msgMax a)) ∧
    (a = 0x00000000#32 ∨ locate s.msgMax a = .reserved → memRead s a = 0x00#8)

/-- R51, R52, R55: every register is read at its address, element `j` of a file at base + `j`. -/
def Obligations.HostReadsEachRegisterAtItsAddress : Prop :=
  ∀ s : State, msgMaxLegal s.msgMax = true →
    memRead s 0x00#32 = 0x00#8 ∧ memRead s 0x01#32 = s.status ∧ memRead s 0x02#32 = s.err ∧ memRead s 0x03#32 = s.keylen ∧
    (∀ k, k < 4 → memRead s (BitVec.ofNat 32 (0x04 + k)) = lenByte s.ilen k) ∧
    (∀ k, k < 4 → memRead s (BitVec.ofNat 32 (0x08 + k)) = lenByte s.olen k) ∧
    memRead s 0x0C#32 = s.rounds ∧
    (∀ j : Fin 16, memRead s (BitVec.ofNat 32 (0x10 + j)) = s.iv[j]) ∧
    (∀ j : Fin 32, memRead s (BitVec.ofNat 32 (0x20 + j)) = s.key[j]) ∧
    (∀ j : Fin 240, memRead s (BitVec.ofNat 32 (0x100 + j)) = s.rk[j]) ∧
    (∀ j, j < s.msgMax → memRead s (BitVec.ofNat 32 (0x10000000 + j)) = s.ibuf.read j) ∧
    ∀ j, j < s.msgMax + 16 → memRead s (BitVec.ofNat 32 (0x20000000 + j)) = s.obuf.read j

/-- R24, R27, R55: ILEN and OLEN are the little-endian numbers of their four byte registers. -/
def Obligations.LengthRegistersAreLittleEndian : Prop :=
  ∀ s : State,
    s.ilen.toNat = (memRead s 0x04#32).toNat + 256 * (memRead s 0x05#32).toNat + 65536 * (memRead s 0x06#32).toNat +
      16777216 * (memRead s 0x07#32).toNat ∧
    s.olen.toNat = (memRead s 0x08#32).toNat + 256 * (memRead s 0x09#32).toNat + 65536 * (memRead s 0x0A#32).toNat +
      16777216 * (memRead s 0x0B#32).toNat

/-- R53, R36 item 7: a host write to a register of access RW stores the byte there; every other address reads as before, and no result register changes.
The premise on IBUF is part of the invariant that every step keeps (StepKeepsTheInvariant). -/
def Obligations.HostWriteStoresOneRegister : Prop :=
  ∀ (s : State) (a : Addr) (v : Byte) (rest : List HostOp), msgMaxLegal s.msgMax = true → s.ibuf.wf s.msgMax = true →
    s.pending = .write a v :: rest → (locate s.msgMax a).access = .readWrite →
    ∃ t, step s = .next t ∧ memRead t a = v ∧ (∀ b, b ≠ a → memRead t b = memRead s b) ∧ SameResults s t ∧
      t.pending = rest ∧ t.trace = .write a v :: s.trace

/-- R54: a reserved address reads as 0x00; a write to it, or to a register of access RO, changes nothing, ERR included; and no access at all but a write to CMD
changes ERR or stops the machine. -/
def Obligations.ReservedAndReadOnlyWritesAreIgnored : Prop :=
  ∀ (s : State) (a : Addr) (rest : List HostOp), msgMaxLegal s.msgMax = true →
    (locate s.msgMax a = .reserved → memRead s a = 0x00#8) ∧
    (∀ v : Byte, s.pending = .write a v :: rest → (locate s.msgMax a = .reserved ∨ (locate s.msgMax a).access = .readOnly) →
      step s = .next { s with pending := rest, trace := .write a v :: s.trace }) ∧
    (∀ v : Byte, s.pending = .write a v :: rest → a ≠ 0x00000000#32 → ∃ t, step s = .next t ∧ t.err = s.err) ∧
    (s.pending = .read a :: rest → ∃ t, step s = .next t ∧ t.err = s.err)

/-- R87: the transactions of LDKEY leave the key bytes in KEY[0..n-1] and n in KEYLEN, KEY[n..31] and everything else as they were. -/
def Obligations.LdkeyLoadsTheKey : Prop :=
  ∀ (s : State) (h : List Byte), msgMaxLegal s.msgMax = true → h.length ≤ 32 →
    ∃ t, Sys2Proof.core.run (h.length + 1) (s.withScript [.ldkey h]) = .next t ∧ t.keylen.toNat = h.length ∧
      (∀ j, j < h.length → fileRead t.key j = h.getD j 0x00#8) ∧
      (∀ j, h.length ≤ j → fileRead t.key j = fileRead s.key j) ∧
      t.iv = s.iv ∧ t.ilen = s.ilen ∧ t.ibuf = s.ibuf ∧ t.pending = s.pending ∧ SameResults s t

/-- R87, R260: MOVOI n copies OBUF[0..n-1] to IBUF[0..n-1] and sets ILEN to n, in 2n + 4 transactions; the bytes whose IBUF index is MSG_MAX or more are lost,
since those addresses are reserved. The premise on IBUF is part of the invariant that every step keeps (StepKeepsTheInvariant). -/
def Obligations.MovoiCopiesTheResultToTheInput : Prop :=
  ∀ (s : State) (n : Nat), msgMaxLegal s.msgMax = true → s.ibuf.wf s.msgMax = true → n ≤ s.msgMax + 16 →
    ∃ t, Sys2Proof.core.run (2 * n + 4) (s.withScript [.movoi n]) = .next t ∧ t.ilen.toNat = n ∧
      (∀ j, j < n → j < s.msgMax → t.ibuf.read j = s.obuf.read j) ∧
      (∀ j, n ≤ j ∨ s.msgMax ≤ j → t.ibuf.read j = s.ibuf.read j) ∧
      t.key = s.key ∧ t.keylen = s.keylen ∧ t.iv = s.iv ∧ t.pending = s.pending ∧ SameResults s t

/-! ### Reset -/

/-- R37: every register and buffer is zero after reset. -/
def Obligations.ResetLeavesEverythingZero : Prop :=
  (∀ j : Fin 32, State.reset.key[j] = 0x00#8) ∧ State.reset.keylen = 0x00#8 ∧ (∀ j : Fin 16, State.reset.iv[j] = 0x00#8) ∧
  State.reset.ilen = 0#32 ∧ (∀ j, State.reset.ibuf.read j = 0x00#8) ∧ (∀ j, State.reset.obuf.read j = 0x00#8) ∧
  State.reset.olen = 0#32 ∧ (∀ j : Fin 240, State.reset.rk[j] = 0x00#8) ∧ State.reset.rounds = 0x00#8 ∧
  State.reset.status = 0x00#8 ∧ State.reset.kvalid = false ∧ State.reset.errf = false ∧ State.reset.err = 0x00#8 ∧
  ∀ a, memRead State.reset a = 0x00#8

/-- R250: the reset event, from any state, leaves every register as after reset; EXPANDKEY, ENCMSG and DECMSG then fail with InvalidKeyLength, ENCBLK and
DECBLK with InvalidBlockLength, and with NoSchedule once ILEN = 16. That MSG_MAX, the host's transactions and the trace stay is the model's (assumption 4). -/
def Obligations.ResetEventClearsTheMachine : Prop :=
  ∀ (s : State) (rest : List HostOp), msgMaxLegal s.msgMax = true → s.pending = .reset :: rest →
    ∃ t, step s = .next t ∧ t = { State.reset with msgMax := s.msgMax, pending := rest, trace := s.trace } ∧
      (∀ i, i = .expandkey ∨ i = .encmsg ∨ i = .decmsg → ∃ u, exec i t = .next u ∧ Failed u 0x01#8) ∧
      ∀ i, i = .encblk ∨ i = .decblk →
        (∃ u, exec i t = .next u ∧ Failed u 0x02#8) ∧ ∃ u, exec i { t with ilen := 16#32 } = .next u ∧ Failed u 0x81#8

/-! ### GF(2^8) and the tables -/

/-- R102: the two forms of multiplication agree on all operand pairs; the corner cases and the worked example. -/
def Obligations.MultiplicationFormsAgree : Prop :=
  (∀ a b : Byte, gfMultiply a b = gfMultiplyOnePass a b) ∧
  (∀ a : Byte, gfMultiply a 0x00#8 = 0x00#8 ∧ gfMultiply 0x00#8 a = 0x00#8 ∧ gfMultiply a 0x01#8 = a ∧ gfMultiply 0x01#8 a = a) ∧
  gfMultiply 0x57#8 0x83#8 = 0xC1#8

/-- R103: `xtime` is multiplication by 0x02; its formula, corner cases and the chain from 0x01. -/
def Obligations.XtimeIsMultiplicationByTwo : Prop :=
  (∀ a : Byte, xtime a = gfMultiply a 0x02#8) ∧
  (∀ a : Byte, (xtime a).toNat = (a.toNat * 2 % 256) ^^^ (if a.toNat ≥ 128 then 0x1B else 0)) ∧
  xtime 0x00#8 = 0x00#8 ∧ xtime 0x80#8 = 0x1B#8 ∧ xtime 0x7F#8 = 0xFE#8 ∧ xtime 0xFF#8 = 0xE5#8 ∧
  (List.range 14).map roundConstant =
    [0x01#8, 0x02#8, 0x04#8, 0x08#8, 0x10#8, 0x20#8, 0x40#8, 0x80#8, 0x1B#8, 0x36#8, 0x6C#8, 0xD8#8, 0xAB#8, 0x4D#8]

/-- R104, items 1 to 6: the laws of `gfMultiply`, for all bytes. -/
def Obligations.FieldMultiplicationLaws : Prop :=
  (∀ a b : Byte, gfMultiply a b = gfMultiply b a) ∧
  (∀ a b c : Byte, gfMultiply (gfMultiply a b) c = gfMultiply a (gfMultiply b c)) ∧
  (∀ a b c : Byte, gfMultiply a (b ^^^ c) = gfMultiply a b ^^^ gfMultiply a c) ∧
  (∀ a : Byte, gfMultiply a 0x01#8 = a ∧ gfMultiply 0x01#8 a = a ∧ gfMultiply a 0x00#8 = 0x00#8 ∧ gfMultiply 0x00#8 a = 0x00#8) ∧
  (∀ a b : Byte, gfMultiply a b = 0x00#8 → a = 0x00#8 ∨ b = 0x00#8) ∧
  ∀ a : Byte, gfMultiply a 0x03#8 = xtime a ^^^ a ∧
    gfMultiply a 0x09#8 = xtime (xtime (xtime a)) ^^^ a ∧
    gfMultiply a 0x0B#8 = xtime (xtime (xtime a)) ^^^ xtime a ^^^ a ∧
    gfMultiply a 0x0D#8 = xtime (xtime (xtime a)) ^^^ xtime (xtime a) ^^^ a ∧
    gfMultiply a 0x0E#8 = xtime (xtime (xtime a)) ^^^ xtime (xtime a) ^^^ xtime a

/-- R105: `gfInverse` of 0x00 is 0x00; of any other byte it is the one byte whose product with it is 0x01; it is an involution. -/
def Obligations.InverseIsTheUniqueInverse : Prop :=
  gfInverse 0x00#8 = 0x00#8 ∧
  (∀ a x : Byte, a ≠ 0x00#8 → (gfMultiply a x = 0x01#8 ↔ x = gfInverse a)) ∧
  (∀ a : Byte, gfInverse (gfInverse a) = a) ∧ gfInverse 0x01#8 = 0x01#8 ∧ gfInverse 0x53#8 = 0xCA#8

/-- R106: the printed table is `gfInverse`, and its entries are inverses. -/
def Obligations.InverseTableIsGfInverse : Prop :=
  ∀ a : Byte, tableEntry gfInverseRows a = gfInverse a ∧ (a ≠ 0x00#8 → gfMultiply a (tableEntry gfInverseRows a) = 0x01#8)

/-- R121: the printed SBOX is what R120 computes, a permutation with no fixed point. -/
def Obligations.SboxIsTheAffineMapOfTheInverse : Prop :=
  (∀ a : Byte, sbox a = sboxFormula a) ∧ (∀ a b : Byte, sbox a = sbox b → a = b) ∧ (∀ b : Byte, ∃ a, sbox a = b) ∧
  (∀ a : Byte, sbox a ≠ a) ∧ sbox 0x53#8 = 0xED#8

/-- R122: INVSBOX is the exact inverse of SBOX; the corner entries. -/
def Obligations.InvSboxIsTheExactInverse : Prop :=
  (∀ a : Byte, invSbox (sbox a) = a ∧ sbox (invSbox a) = a) ∧
  invSbox 0x63#8 = 0x00#8 ∧ invSbox 0x00#8 = 0x52#8 ∧ invSbox 0x16#8 = 0xFF#8 ∧ invSbox 0xED#8 = 0x53#8

/-- R124: MINV·M is the identity matrix; column `k` of the product is MINV applied to column `k` of M. -/
def Obligations.InverseMatrixTimesMatrixIsIdentity : Prop :=
  matrixMinv = ⟨⟨0x0E#8, 0x0B#8, 0x0D#8, 0x09#8⟩, ⟨0x09#8, 0x0E#8, 0x0B#8, 0x0D#8⟩, ⟨0x0D#8, 0x09#8, 0x0E#8, 0x0B#8⟩,
    ⟨0x0B#8, 0x0D#8, 0x09#8, 0x0E#8⟩⟩ ∧
  matrixMinv.apply ⟨matrixM.r0.b0, matrixM.r1.b0, matrixM.r2.b0, matrixM.r3.b0⟩ = ⟨0x01#8, 0x00#8, 0x00#8, 0x00#8⟩ ∧
  matrixMinv.apply ⟨matrixM.r0.b1, matrixM.r1.b1, matrixM.r2.b1, matrixM.r3.b1⟩ = ⟨0x00#8, 0x01#8, 0x00#8, 0x00#8⟩ ∧
  matrixMinv.apply ⟨matrixM.r0.b2, matrixM.r1.b2, matrixM.r2.b2, matrixM.r3.b2⟩ = ⟨0x00#8, 0x00#8, 0x01#8, 0x00#8⟩ ∧
  matrixMinv.apply ⟨matrixM.r0.b3, matrixM.r1.b3, matrixM.r2.b3, matrixM.r3.b3⟩ = ⟨0x00#8, 0x00#8, 0x00#8, 0x01#8⟩

/-! ### The key schedule -/

/-- R148: the schedule of a valid key has exactly rounds + 1 round keys, 11, 13 or 15; a key of any other length yields InvalidKeyLength and an all-zero RK, never a
degraded or partial schedule and never the one that stood there before, from EXPANDKEY and from a message command whose ILEN is at most MSG_MAX alike (R147, R194, R195, R220);
and once built it is immutable: ENCBLK, DECBLK and host writes leave it as it is. -/
def Obligations.ScheduleHasRoundsPlusOneKeys : Prop :=
  (∀ key : List Byte,
    (key.length = 16 → (expandKey key).length = 11) ∧ (key.length = 24 → (expandKey key).length = 13) ∧
    (key.length = 32 → (expandKey key).length = 15)) ∧
  (∀ (i : Instr) (s : State), (i = .expandkey ∨ ((i = .encmsg ∨ i = .decmsg) ∧ s.ilen.toNat ≤ s.msgMax)) →
    s.keylen ≠ 16#8 → s.keylen ≠ 24#8 → s.keylen ≠ 32#8 →
    ∃ t, exec i s = .next t ∧ Failed t 0x01#8 ∧ (∀ j : Fin 240, t.rk[j] = 0x00#8) ∧ t.rounds = 0x00#8 ∧
      t.kvalid = false ∧ SameInputs s t) ∧
  ∀ s : State, (∀ i, i = .encblk ∨ i = .decblk → ∃ t, exec i s = .next t ∧ SameSchedule s t) ∧
    ∀ a v, (memWrite s a v).rk = s.rk ∧ (memWrite s a v).rounds = s.rounds ∧ (memWrite s a v).status = s.status

/-- R145, R146: the words `w i` of the expansion (word `i` is column `i mod 4` of round key `i / 4`): the first Nk are the key's, each later one is
`w[i-Nk]` XOR the transformed `w[i-1]`, the round constant doubling from group to group; and where the key's own bytes stand in the first round keys. -/
def Obligations.ExpansionFollowsTheRecurrence : Prop :=
  ∀ (key : List Byte) (nk : Nat) (w : Nat → Word), (key.length = 16 ∨ key.length = 24 ∨ key.length = 32) →
    nk = key.length / 4 → (∀ i, w i = (roundKey (expandKey key) (i / 4)).col (i % 4)) →
    (expandKey key).length = nk + 7 ∧
    (∀ i, i < nk → w i = ⟨key.getD (4 * i) 0, key.getD (4 * i + 1) 0, key.getD (4 * i + 2) 0, key.getD (4 * i + 3) 0⟩) ∧
    (∀ i, nk ≤ i → i < 4 * (nk + 7) →
      w i = (w (i - nk)).xor
        (if i % nk = 0 then addRoundConstant (roundConstant (i / nk - 1)) (subWord (rotWord (w (i - 1))))
         else if nk > 6 ∧ i % nk = 4 then subWord (w (i - 1))
         else w (i - 1))) ∧
    roundKey (expandKey key) 0 = Block.ofBytes key ∧
    (key.length = 24 → (roundKey (expandKey key) 1).c0 = Word.ofBytes (key.drop 16) ∧
      (roundKey (expandKey key) 1).c1 = Word.ofBytes (key.drop 20)) ∧
    (key.length = 32 → roundKey (expandKey key) 1 = Block.ofBytes (key.drop 16))

/-- EXPANDKEY completes in every state whose KEYLEN is 16, 24 or 32, and RK then holds the schedule, byte by byte (R147). -/
def Obligations.ExpandkeyLoadsTheSchedule : Prop :=
  ∀ s : State, (s.keylen = 16#8 ∨ s.keylen = 24#8 ∨ s.keylen = 32#8) →
    ∃ t, exec .expandkey s = .next t ∧ t.rounds.toNat = s.keylen.toNat / 4 + 6 ∧ t.kvalid = true ∧
      (∀ k j, k ≤ s.keylen.toNat / 4 + 6 → j < 16 →
        fileRead t.rk (16 * k + j) = (roundKey (expandKey (s.key.toList.take s.keylen.toNat)) k).get j) ∧
      (∀ j, 16 * (s.keylen.toNat / 4 + 7) ≤ j → fileRead t.rk j = 0x00#8) ∧
      Succeeded t [] ∧ SameInputs s t ∧ t.status &&& 0xFC#8 = s.status &&& 0xFC#8

/-! ### The block transform -/

/-- R161, R162, R165: the byte-wise operations, byte lane by byte lane, and their inverses. -/
def Obligations.ByteWiseOperations : Prop :=
  ∀ (s k : Block),
    (∀ i, i < 16 → (addRoundKey s k).get i = s.get i ^^^ k.get i) ∧ addRoundKey (addRoundKey s k) k = s ∧
    (∀ i, i < 16 → (subBytes s).get i = sbox (s.get i)) ∧ (∀ i, i < 16 → (invSubBytes s).get i = invSbox (s.get i)) ∧
    invSubBytes (subBytes s) = s ∧ subBytes (invSubBytes s) = s

/-- R163, R166: the row rotations, element by element, that each undoes the other, and that they commute with the substitutions. -/
def Obligations.RowRotations : Prop :=
  ∀ s : Block,
    (∀ r c, r < 4 → c < 4 → (shiftRows s).at r c = s.at r ((c + r) % 4)) ∧
    (∀ r c, r < 4 → c < 4 → (invShiftRows s).at r c = s.at r ((c + 4 - r) % 4)) ∧
    invShiftRows (shiftRows s) = s ∧ shiftRows (invShiftRows s) = s ∧
    shiftRows (subBytes s) = subBytes (shiftRows s) ∧ invShiftRows (invSubBytes s) = invSubBytes (invShiftRows s)

/-- R164, R167: the column mixes, element by element with the entries of M and MINV written out, that each undoes the other, and the column of four equal bytes. -/
def Obligations.ColumnMixes : Prop :=
  ∀ s : Block,
    (∀ c, c < 4 →
      (mixColumns s).at 0 c = xtime (s.at 0 c) ^^^ (xtime (s.at 1 c) ^^^ s.at 1 c) ^^^ s.at 2 c ^^^ s.at 3 c ∧
      (mixColumns s).at 1 c = s.at 0 c ^^^ xtime (s.at 1 c) ^^^ (xtime (s.at 2 c) ^^^ s.at 2 c) ^^^ s.at 3 c ∧
      (mixColumns s).at 2 c = s.at 0 c ^^^ s.at 1 c ^^^ xtime (s.at 2 c) ^^^ (xtime (s.at 3 c) ^^^ s.at 3 c) ∧
      (mixColumns s).at 3 c = (xtime (s.at 0 c) ^^^ s.at 0 c) ^^^ s.at 1 c ^^^ s.at 2 c ^^^ xtime (s.at 3 c)) ∧
    (∀ c, c < 4 →
      (invMixColumns s).at 0 c = gfMultiply 0x0E#8 (s.at 0 c) ^^^ gfMultiply 0x0B#8 (s.at 1 c) ^^^
        gfMultiply 0x0D#8 (s.at 2 c) ^^^ gfMultiply 0x09#8 (s.at 3 c) ∧
      (invMixColumns s).at 1 c = gfMultiply 0x09#8 (s.at 0 c) ^^^ gfMultiply 0x0E#8 (s.at 1 c) ^^^
        gfMultiply 0x0B#8 (s.at 2 c) ^^^ gfMultiply 0x0D#8 (s.at 3 c) ∧
      (invMixColumns s).at 2 c = gfMultiply 0x0D#8 (s.at 0 c) ^^^ gfMultiply 0x09#8 (s.at 1 c) ^^^
        gfMultiply 0x0E#8 (s.at 2 c) ^^^ gfMultiply 0x0B#8 (s.at 3 c) ∧
      (invMixColumns s).at 3 c = gfMultiply 0x0B#8 (s.at 0 c) ^^^ gfMultiply 0x0D#8 (s.at 1 c) ^^^
        gfMultiply 0x09#8 (s.at 2 c) ^^^ gfMultiply 0x0E#8 (s.at 3 c)) ∧
    invMixColumns (mixColumns s) = s ∧ mixColumns (invMixColumns s) = s ∧
    (∀ c a, c < 4 → s.col c = ⟨a, a, a, a⟩ → (mixColumns s).col c = ⟨a, a, a, a⟩)

/-- R168: the forward transform as the loop over the round index: state 0, main rounds 1..R-1 in increasing order, the final round R. -/
def Obligations.EncryptBlockIsTheRoundLoop : Prop :=
  ∀ (block : Block) (rk : List Block) (R : Nat), rk.length = R + 1 → (R = 10 ∨ R = 12 ∨ R = 14) →
    encryptBlock block rk =
      addRoundKey (shiftRows (subBytes
        ((List.range' 1 (R - 1)).foldl
          (fun s r => addRoundKey (mixColumns (shiftRows (subBytes s))) (rk.getD r .zero))
          (addRoundKey block (rk.getD 0 .zero))))) (rk.getD R .zero)

/-- R169: the inverse transform as the loop over the round index: the final round undone, main rounds R-1 downto 1 undone, then state 0. -/
def Obligations.DecryptBlockIsTheReversedLoop : Prop :=
  ∀ (block : Block) (rk : List Block) (R : Nat), rk.length = R + 1 → (R = 10 ∨ R = 12 ∨ R = 14) →
    decryptBlock block rk =
      addRoundKey
        ((List.range' 1 (R - 1)).reverse.foldl
          (fun s r => invSubBytes (invShiftRows (invMixColumns (addRoundKey s (rk.getD r .zero)))))
          (invSubBytes (invShiftRows (addRoundKey block (rk.getD R .zero))))) (rk.getD 0 .zero)

/-- R170: the defining property, for every sequence of round keys, the schedule of every key among them: decrypting undoes encrypting, and encrypting undoes decrypting. -/
def Obligations.BlockRoundTrip : Prop :=
  ∀ (rk : List Block) (b : Block), decryptBlock (encryptBlock b rk) rk = b ∧ encryptBlock (decryptBlock b rk) rk = b

/-- R126: the known-answer vector the source prints. -/
def Obligations.KnownAnswerVector : Prop :=
  encryptBlock
    (Block.ofBytes [0x00, 0x11, 0x22, 0x33, 0x44, 0x55, 0x66, 0x77, 0x88, 0x99, 0xAA, 0xBB, 0xCC, 0xDD, 0xEE, 0xFF])
    (expandKey [0x00, 0x01, 0x02, 0x03, 0x04, 0x05, 0x06, 0x07, 0x08, 0x09, 0x0A, 0x0B, 0x0C, 0x0D, 0x0E, 0x0F]) =
  Block.ofBytes [0x69, 0xC4, 0xE0, 0xD8, 0x6A, 0x7B, 0x04, 0x30, 0xD8, 0xCD, 0xB7, 0x80, 0x70, 0xB4, 0xC5, 0x5A]

/-- R61: the operands a command reads are the registers' bytes: block byte `i` is IBUF[i], byte `j` of round key `k` is RK[16k + j], message byte `j` is IBUF[j],
key byte `j` is KEY[j], IV byte `j` is IV[j]. -/
def Obligations.OperandsAreTheRegisters : Prop :=
  ∀ s : State,
    (∀ i, i < 16 → s.inputBlock.get i = s.ibuf.read i) ∧ (∀ j, j < 16 → s.ivBlock.get j = fileRead s.iv j) ∧
    s.schedule.length = s.rounds.toNat + 1 ∧
    (∀ k j, k ≤ s.rounds.toNat → j < 16 → (roundKey s.schedule k).get j = fileRead s.rk (16 * k + j)) ∧
    s.message.length = s.ilen.toNat ∧ (∀ j, j < s.ilen.toNat → s.message.getD j 0x00#8 = s.ibuf.read j) ∧
    (s.keylen.toNat ≤ 32 → s.keyBytes.length = s.keylen.toNat) ∧
    ∀ j, j < s.keylen.toNat → s.keyBytes.getD j 0x00#8 = fileRead s.key j

/-- ENCBLK completes in every state with ILEN = 16 and KVALID = 1 (R171). -/
def Obligations.EncblkEncryptsTheInputBlock : Prop :=
  ∀ s : State, s.ilen = 16#32 → s.kvalid = true →
    ∃ t, exec .encblk s = .next t ∧ t.olen = 16#32 ∧ Succeeded t (encryptBlock s.inputBlock s.schedule).toBytes ∧
      (∀ j, j < 16 → t.obuf.read j = (encryptBlock s.inputBlock s.schedule).get j) ∧ SameInputs s t ∧ SameSchedule s t

/-- DECBLK completes in every state with ILEN = 16 and KVALID = 1 (R172). -/
def Obligations.DecblkDecryptsTheInputBlock : Prop :=
  ∀ s : State, s.ilen = 16#32 → s.kvalid = true →
    ∃ t, exec .decblk s = .next t ∧ t.olen = 16#32 ∧ Succeeded t (decryptBlock s.inputBlock s.schedule).toBytes ∧
      (∀ j, j < 16 → t.obuf.read j = (decryptBlock s.inputBlock s.schedule).get j) ∧ SameInputs s t ∧ SameSchedule s t

/-- ENCBLK, then DECBLK on its result, gives the first input block back: in register terms, for any schedule in RK and whatever KEY, KEYLEN and IV the host has
written in between. -/
def Obligations.DecblkUndoesEncblkInRegisters : Prop :=
  ∀ (s : State) (key : Vector Byte 32) (keylen : Byte) (iv : Vector Byte 16), s.ilen = 16#32 → s.kvalid = true →
    ∃ t u, exec .encblk s = .next t ∧
      exec .decblk { t with ibuf := t.obuf, key := key, keylen := keylen, iv := iv } = .next u ∧
      u.err = 0x00#8 ∧ ∀ j, j < 16 → u.obuf.read j = s.ibuf.read j

/-- R253, R82: what ENCBLK and DECBLK do depends only on ILEN, IBUF[0..15], STATUS, ROUNDS and RK: two states that agree there give the same result, whatever
KEY, KEYLEN, IV, the rest of IBUF and the older result hold. -/
def Obligations.BlockCommandsReadOnlyTheirOperands : Prop :=
  ∀ (i : Instr) (s s' : State), (i = .encblk ∨ i = .decblk) → s.ilen = s'.ilen →
    (∀ j, j < 16 → s.ibuf.read j = s'.ibuf.read j) → s.status = s'.status → s.rounds = s'.rounds → s.rk = s'.rk →
    ∃ t t', exec i s = .next t ∧ exec i s' = .next t' ∧ SameResults t { t' with msgMax := t.msgMax }

/-- R82, R147, R21, R24: what EXPANDKEY does depends only on KEYLEN and KEY[0..KEYLEN-1]; what ENCMSG and DECMSG do, only on KEYLEN, KEY[0..KEYLEN-1], IV, ILEN and
IBUF[0..ILEN-1] (against MSG_MAX), and on the schedule as it stood only where ILEN > MSG_MAX keeps it. Bytes of KEY from KEYLEN up and of IBUF from ILEN up are ignored. -/
def Obligations.KeyAndMessageCommandsReadOnlyTheirOperands : Prop :=
  ∀ s s' : State, s.keylen = s'.keylen → (∀ j, j < s.keylen.toNat → fileRead s.key j = fileRead s'.key j) →
    (∃ t t', exec .expandkey s = .next t ∧ exec .expandkey s' = .next t' ∧ SameOutcome t t') ∧
    ∀ i : Instr, (i = .encmsg ∨ i = .decmsg) → s.msgMax = s'.msgMax → s.iv = s'.iv → s.ilen = s'.ilen →
      (∀ j, j < s.ilen.toNat → s.ibuf.read j = s'.ibuf.read j) →
      (s.msgMax < s.ilen.toNat → s.rk = s'.rk ∧ s.rounds = s'.rounds ∧ s.kvalid = s'.kvalid) →
      ∃ t t', exec i s = .next t ∧ exec i s' = .next t' ∧ SameOutcome t t'

/-! ### Padding and CBC -/

/-- R190: padding adds N = 16 - (len mod 16) bytes of value N, so that the length is a positive multiple of 16. -/
def Obligations.PaddingAddsItsOwnLength : Prop :=
  ∀ m : List Byte, ∃ n, n = 16 - m.length % 16 ∧ 1 ≤ n ∧ n ≤ 16 ∧ (pad m).length = m.length + n ∧ (pad m).length % 16 = 0 ∧
    0 < (pad m).length ∧ (pad m).take m.length = m ∧
    (∀ j, m.length ≤ j → j < m.length + n → (pad m).getD j 0x00#8 = BitVec.ofNat 8 n) ∧
    (m.length % 16 = 0 → pad m = m ++ List.replicate 16 0x10#8)

/-- R191: on a sequence whose length is a positive multiple of 16, unpadding gives `m` exactly when the sequence is `m` followed by N bytes of value N, 1 ≤ N ≤ 16; it gives InvalidPadding
otherwise; and it undoes padding. -/
def Obligations.UnpadAcceptsExactlyValidPadding : Prop :=
  (∀ p m : List Byte, 0 < p.length → p.length % 16 = 0 →
    (unpad p = .ok m ↔ ∃ n, 1 ≤ n ∧ n ≤ 16 ∧ p = m ++ List.replicate n (BitVec.ofNat 8 n))) ∧
  (∀ p : List Byte, 0 < p.length → p.length % 16 = 0 → (∀ m, unpad p ≠ .ok m) → unpad p = .error .invalidPadding) ∧
  ∀ m : List Byte, unpad (pad m) = .ok m

/-- R192: encryption of a message, block by block: `C[0] = encryptBlock(P[0] ^ iv)`, `C[k] = encryptBlock(P[k] ^ C[k-1])`; a key of another length gives InvalidKeyLength. -/
def Obligations.CbcEncryptionChainsTheBlocks : Prop :=
  ∀ (m key : List Byte) (iv : Block) (C P : Nat → Block) (rk : List Block), rk = expandKey key →
    (keyLengthValid key.length = false → encryptMessage m key iv = .error .invalidKeyLength) ∧
    (keyLengthValid key.length = true →
      ∃ out, encryptMessage m key iv = .ok out ∧ out.length = (pad m).length ∧
        ((∀ k, C k = Block.ofBytes (out.drop (16 * k))) → (∀ k, P k = Block.ofBytes ((pad m).drop (16 * k))) →
          C 0 = encryptBlock ((P 0).xor iv) rk ∧
          ∀ k, 16 * (k + 1) < out.length → C (k + 1) = encryptBlock ((P (k + 1)).xor (C k)) rk))

/-- R193: decryption of a message, block by block: `P[0] = decryptBlock(C[0]) ^ iv`, `P[k] = decryptBlock(C[k]) ^ C[k-1]`, then unpadding; the errors in their order. -/
def Obligations.CbcDecryptionChainsTheBlocks : Prop :=
  ∀ (c key : List Byte) (iv : Block) (C P : Nat → Block) (rk : List Block), rk = expandKey key →
    (keyLengthValid key.length = false → decryptMessage c key iv = .error .invalidKeyLength) ∧
    (keyLengthValid key.length = true → (c.length = 0 ∨ c.length % 16 ≠ 0) →
      decryptMessage c key iv = .error .invalidCiphertextLength) ∧
    (keyLengthValid key.length = true → c.length ≠ 0 → c.length % 16 = 0 →
      ∃ p, decryptMessage c key iv = unpad p ∧ p.length = c.length ∧
        ((∀ k, C k = Block.ofBytes (c.drop (16 * k))) → (∀ k, P k = Block.ofBytes (p.drop (16 * k))) →
          P 0 = (decryptBlock (C 0) rk).xor iv ∧
          ∀ k, 16 * (k + 1) < c.length → P (k + 1) = (decryptBlock (C (k + 1)) rk).xor (C k)))

/-- R197, pure form: for every valid key, every IV and every message, decrypting the encryption gives the message. -/
def Obligations.MessageRoundTrip : Prop :=
  ∀ (m key : List Byte) (iv : Block), keyLengthValid key.length = true →
    ∃ out, encryptMessage m key iv = .ok out ∧ decryptMessage out key iv = .ok m

/-- ENCMSG completes in every state with ILEN ≤ MSG_MAX and a valid KEYLEN (R194, R196): the result is `encryptMessage` of the operands, OLEN = ILEN + 16 - (ILEN mod 16), and RK
holds the key's schedule. -/
def Obligations.EncmsgEncryptsTheMessage : Prop :=
  ∀ s : State, msgMaxLegal s.msgMax = true → s.ilen.toNat ≤ s.msgMax → keyLengthValid s.keylen.toNat = true →
    ∃ t out, exec .encmsg s = .next t ∧ encryptMessage s.message s.keyBytes s.ivBlock = .ok out ∧ Succeeded t out ∧
      t.olen.toNat = s.ilen.toNat + 16 - s.ilen.toNat % 16 ∧ t.olen.toNat ≤ s.msgMax + 16 ∧
      t.kvalid = true ∧ t.HoldsSchedule s.keyBytes ∧ SameInputs s t ∧ t.status &&& 0xFC#8 = s.status &&& 0xFC#8

/-- DECMSG completes in every state with ILEN a positive multiple of 16 and at most MSG_MAX, a valid KEYLEN, and a ciphertext that decrypts to a validly padded message (R195, R196). -/
def Obligations.DecmsgDecryptsTheMessage : Prop :=
  ∀ (s : State) (m : List Byte), msgMaxLegal s.msgMax = true → s.ilen.toNat ≤ s.msgMax → keyLengthValid s.keylen.toNat = true →
    s.ilen ≠ 0#32 → s.ilen.toNat % 16 = 0 → decryptMessage s.message s.keyBytes s.ivBlock = .ok m →
    ∃ t, exec .decmsg s = .next t ∧ Succeeded t m ∧ s.ilen.toNat - 16 ≤ t.olen.toNat ∧ t.olen.toNat ≤ s.ilen.toNat - 1 ∧
      t.kvalid = true ∧ t.HoldsSchedule s.keyBytes ∧ SameInputs s t ∧ t.status &&& 0xFC#8 = s.status &&& 0xFC#8

/-- R197, register form: after ENCMSG with OLEN ≤ MSG_MAX, DECMSG on the result (copied to IBUF, ILEN = OLEN, the same KEY, KEYLEN and IV) gives the message and its length back, ERR = 0x00. -/
def Obligations.DecmsgUndoesEncmsgInRegisters : Prop :=
  ∀ s : State, msgMaxLegal s.msgMax = true → s.ilen.toNat ≤ s.msgMax → keyLengthValid s.keylen.toNat = true →
    s.ilen.toNat + 16 - s.ilen.toNat % 16 ≤ s.msgMax →
    ∃ t u, exec .encmsg s = .next t ∧ exec .decmsg { t with ibuf := t.obuf, ilen := t.olen } = .next u ∧
      u.err = 0x00#8 ∧ u.olen = s.ilen ∧ ∀ j, j < s.ilen.toNat → u.obuf.read j = s.ibuf.read j

/-- R260: ENCMSG of a full input buffer (MSG_MAX a multiple of 16) succeeds with OLEN = MSG_MAX + 16; DECMSG on that many bytes ends with MessageTooLong and keeps the schedule. -/
def Obligations.FullBufferCannotBeDecryptedOnTheSameInstance : Prop :=
  ∀ (s : State) (ibuf : Memory), msgMaxLegal s.msgMax = true → s.msgMax % 16 = 0 → s.ilen.toNat = s.msgMax →
    keyLengthValid s.keylen.toNat = true →
    ∃ t u, exec .encmsg s = .next t ∧ t.err = 0x00#8 ∧ t.olen.toNat = s.msgMax + 16 ∧
      exec .decmsg { t with ibuf := ibuf, ilen := t.olen } = .next u ∧ Failed u 0x82#8 ∧ SameSchedule t u

/-! ### Errors, frames and whole-machine rules -/

/-- R223: which error each command reports, in the order of the rule's list; with none of them the command succeeds. -/
def Obligations.ErrorsAreReportedInPriorityOrder : Prop :=
  ∀ s : State,
    (∀ op : Byte, (op.toNat = 0 ∨ 5 < op.toNat) → ∃ t, runCommand op s = .next t ∧ t.err = 0x83#8) ∧
    (∃ t, exec .expandkey s = .next t ∧
      t.err = if keyLengthValid s.keylen.toNat then 0x00#8 else 0x01#8) ∧
    (∀ i, i = .encblk ∨ i = .decblk → ∃ t, exec i s = .next t ∧
      t.err = if s.ilen.toNat ≠ 16 then 0x02#8 else if s.kvalid = false then 0x81#8 else 0x00#8) ∧
    (∃ t, exec .encmsg s = .next t ∧
      t.err = if s.msgMax < s.ilen.toNat then 0x82#8 else if keyLengthValid s.keylen.toNat = false then 0x01#8 else 0x00#8) ∧
    ∃ t, exec .decmsg s = .next t ∧
      t.err = if s.msgMax < s.ilen.toNat then 0x82#8
        else if keyLengthValid s.keylen.toNat = false then 0x01#8
        else if s.ilen.toNat = 0 ∨ s.ilen.toNat % 16 ≠ 0 then 0x03#8
        else if decryptMessage s.message s.keyBytes s.ivBlock = .error .invalidPadding then 0x04#8
        else 0x00#8

/-- Every command answers a next state, from every state. A failed one leaves no result: OLEN 0, OBUF all 0x00, ERRF 1; a successful one leaves ERRF 0 (R221, R222). -/
def Obligations.CommandsEndOnceWithNoPartialResult : Prop :=
  ∀ (i : Instr) (s : State), ∃ t, exec i s = .next t ∧ (t.err ≠ 0x00#8 → Failed t t.err) ∧ (t.err = 0x00#8 → t.errf = false) ∧
    t.err ∈ errValues

/-- The frame of the commands (R36 item 7, R61, R82): no command writes KEY, KEYLEN, IV, ILEN or IBUF, nor STATUS bits 7:2; ENCBLK and DECBLK also keep RK, ROUNDS and KVALID, and so do ENCMSG and DECMSG
that end with MessageTooLong; every host address outside STATUS, ERR, OLEN, ROUNDS, RK and OBUF reads as before. -/
def Obligations.CommandsKeepTheirInputs : Prop :=
  ∀ (i : Instr) (s : State), ∃ t, exec i s = .next t ∧ SameInputs s t ∧ t.status &&& 0xFC#8 = s.status &&& 0xFC#8 ∧
    (i = .encblk ∨ i = .decblk → SameSchedule s t) ∧
    (i = .encmsg ∨ i = .decmsg → s.msgMax < s.ilen.toNat → SameSchedule s t) ∧
    ∀ a : Addr, (locate s.msgMax a).access = .readWrite → memRead t a = memRead s a

/-- R57: executing the same command twice in a row leaves the same state as executing it once. -/
def Obligations.CommandTwiceIsCommandOnce : Prop :=
  ∀ (i : Instr) (s : State), ∃ t, exec i s = .next t ∧ exec i t = .next t

/-- The invariants of R36 hold after reset. -/
def Obligations.ResetMeetsTheInvariant : Prop := State.reset.Inv

/-- R36 items 1 to 6, with the legality of MSG_MAX and the canonical form of the buffers: every step keeps them, from every state that meets them. -/
def Obligations.StepKeepsTheInvariant : Prop :=
  ∀ s t : State, s.Inv → step s = .next t → t.Inv

/-- R54, R221, R229, R259: with a legal MSG_MAX the machine goes on for ever: no transaction, command or event ends in a fault or a refusal. -/
def Obligations.MachineNeverStops : Prop := ∀ s : State, msgMaxLegal s.msgMax = true → s.RunsOn

/-- DECMSG that ends with InvalidCiphertextLength or InvalidPadding has loaded the valid key's schedule, and it stays: RK, ROUNDS and KVALID = 1, whatever stood there
before (R195, R220). -/
def Obligations.DecmsgErrorsLeaveTheNewSchedule : Prop :=
  ∀ (s : State) (code : Byte), s.ilen.toNat ≤ s.msgMax → keyLengthValid s.keylen.toNat = true →
    (((s.ilen = 0#32 ∨ s.ilen.toNat % 16 ≠ 0) ∧ code = 0x03#8) ∨
      (s.ilen ≠ 0#32 ∧ s.ilen.toNat % 16 = 0 ∧ decryptMessage s.message s.keyBytes s.ivBlock = .error .invalidPadding ∧ code = 0x04#8)) →
    ∃ t, exec .decmsg s = .next t ∧ Failed t code ∧ t.kvalid = true ∧ t.HoldsSchedule s.keyBytes ∧ SameInputs s t ∧
      t.status &&& 0xFC#8 = s.status &&& 0xFC#8
end

