-- ==== Sys2Proof/Laws/Bytes.lean ====
section
/-! SUPPORT. Laws of byte sequences as words, blocks, register files and length registers. -/

namespace Sys2Proof

@[simp] theorem Word.toBytes_length (w : Word) : w.toBytes.length = 4 := rfl

@[simp] theorem Block.toBytes_length (b : Block) : b.toBytes.length = 16 := rfl

theorem Word.ofBytes_toBytes_append (w : Word) (l : List Byte) : Word.ofBytes (w.toBytes ++ l) = w := rfl

theorem Block.ofBytes_toBytes_append (b : Block) (l : List Byte) : Block.ofBytes (b.toBytes ++ l) = b := rfl

@[simp] theorem Block.ofBytes_toBytes (b : Block) : Block.ofBytes b.toBytes = b := rfl

/-- Byte `i` of a block is entry `i` of its byte sequence. -/
theorem Block.getD_toBytes (b : Block) (i : Nat) : b.toBytes.getD i 0x00#8 = b.get i := by
  rcases Nat.lt_or_ge i 16 with h | h
  · interval_cases i <;> rfl
  · rw [List.getD_eq_default _ _ (by simpa using h)]
    obtain ⟨q, hq⟩ : ∃ q, i / 4 = q + 4 := ⟨i / 4 - 4, by omega⟩
    have hz : ∀ r, Word.zero.get r = 0x00#8 := fun r => by rcases r with _ | _ | _ | _ | r <;> rfl
    simp [Block.get, Block.at, hq, Block.col, hz]

/-- Byte `i` of the block of a byte sequence is the sequence's byte `i`. -/
theorem Block.get_ofBytes (l : List Byte) (i : Nat) (h : i < 16) : (Block.ofBytes l).get i = l.getD i 0x00#8 := by
  interval_cases i <;> simp [Block.get, Block.at, Block.col, Block.ofBytes, Word.get, Word.ofBytes, List.getD_eq_getElem?_getD]

/-- Blocks are equal when their sixteen bytes are. -/
theorem Block.ext_get {a b : Block} (h : ∀ i, i < 16 → a.get i = b.get i) : a = b := by
  rw [← Block.ofBytes_toBytes a, ← Block.ofBytes_toBytes b]
  congr 1
  apply List.ext_getElem (by simp)
  intro i h1 h2
  have hi : i < 16 := by simpa using h1
  have := h i hi
  rw [← Block.getD_toBytes, ← Block.getD_toBytes, List.getD_eq_getElem _ _ h1, List.getD_eq_getElem _ _ h2] at this
  exact this

theorem Block.toBytes_ofBytes (l : List Byte) (h : 16 ≤ l.length) : (Block.ofBytes l).toBytes = l.take 16 := by
  apply List.ext_getElem (by simp [h])
  intro i h1 h2
  have hi : i < 16 := by simpa using h1
  have := Block.getD_toBytes (Block.ofBytes l) i
  rw [List.getD_eq_getElem _ _ h1, Block.get_ofBytes _ _ hi, List.getD_eq_getElem _ _ (by omega)] at this
  simpa using this

namespace Machine

@[simp] theorem wordsOf_length (n : Nat) (l : List Byte) : (wordsOf n l).length = n := by
  induction n generalizing l with
  | zero => rfl
  | succ n ih => simp [wordsOf, ih]

theorem getD_wordsOf (n i : Nat) (l : List Byte) (h : i < n) :
    (wordsOf n l).getD i .zero = Word.ofBytes (l.drop (4 * i)) := by
  induction n generalizing l i with
  | zero => omega
  | succ n ih =>
    cases i with
    | zero => rfl
    | succ i =>
      have := ih i (l.drop 4) (by omega)
      simp only [wordsOf, List.getD_cons_succ, this, List.drop_drop]
      congr 2; omega

@[simp] theorem blocksOf_length (n : Nat) (l : List Byte) : (blocksOf n l).length = n := by
  induction n generalizing l with
  | zero => rfl
  | succ n ih => simp [blocksOf, ih]

theorem getD_blocksOf (n i : Nat) (l : List Byte) (h : i < n) :
    (blocksOf n l).getD i .zero = Block.ofBytes (l.drop (16 * i)) := by
  induction n generalizing l i with
  | zero => omega
  | succ n ih =>
    cases i with
    | zero => rfl
    | succ i =>
      have := ih i (l.drop 16) (by omega)
      simp only [blocksOf, List.getD_cons_succ, this, List.drop_drop]
      congr 2; omega

@[simp] theorem bytesOf_length (bs : List Block) : (bytesOf bs).length = 16 * bs.length := by
  induction bs with
  | nil => rfl
  | cons b bs ih => simp [bytesOf, ih]; omega

theorem drop_bytesOf (bs : List Block) (k : Nat) : (bytesOf bs).drop (16 * k) = bytesOf (bs.drop k) := by
  induction bs generalizing k with
  | nil => simp [bytesOf]
  | cons b bs ih =>
    cases k with
    | zero => rfl
    | succ k =>
      have h : 16 * (k + 1) = b.toBytes.length + 16 * k := by simp; omega
      rw [bytesOf, h, List.drop_length_add_append, ih, List.drop_succ_cons]

theorem ofBytes_drop_bytesOf (bs : List Block) (k : Nat) (h : k < bs.length) :
    Block.ofBytes ((bytesOf bs).drop (16 * k)) = bs.getD k .zero := by
  rw [drop_bytesOf, List.drop_eq_getElem_cons h, List.getD_eq_getElem _ _ h]
  rfl

theorem blocksOf_bytesOf (bs : List Block) : blocksOf bs.length (bytesOf bs) = bs := by
  induction bs with
  | nil => rfl
  | cons b bs ih =>
    have : (b.toBytes ++ bytesOf bs).drop 16 = bytesOf bs := by
      rw [show (16 : Nat) = b.toBytes.length + 0 from rfl, List.drop_length_add_append]; rfl
    simp only [List.length_cons, blocksOf, bytesOf, Block.ofBytes_toBytes_append, this, ih]

theorem bytesOf_blocksOf (n : Nat) (l : List Byte) (h : l.length = 16 * n) : bytesOf (blocksOf n l) = l := by
  induction n generalizing l with
  | zero => exact (List.eq_nil_of_length_eq_zero h).symm
  | succ n ih =>
    rw [blocksOf, bytesOf, Block.toBytes_ofBytes _ (by omega), ih _ (by simp; omega), List.take_append_drop]

/-- Byte `16k + j` of a sequence of blocks is byte `j` of block `k`. -/
theorem getD_bytesOf (bs : List Block) (k j : Nat) (hj : j < 16) :
    (bytesOf bs).getD (16 * k + j) 0x00#8 = (bs.getD k .zero).get j := by
  induction bs generalizing k with
  | nil =>
    have : ∀ i, i < 16 → Block.zero.get i = 0x00#8 := by intro i hi; interval_cases i <;> rfl
    simp [bytesOf, this j hj]
  | cons b bs ih =>
    cases k with
    | zero =>
      rw [bytesOf, List.getD_append _ _ _ _ (by simpa using hj)]
      simpa using Block.getD_toBytes b j
    | succ k =>
      rw [bytesOf, List.getD_append_right _ _ _ _ (by simp; omega), List.getD_cons_succ, ← ih]
      congr 1; simp; omega

theorem getD_padTo (n j : Nat) (l : List Byte) : (padTo n l).getD j 0x00#8 = if j < n then l.getD j 0x00#8 else 0x00#8 := by
  induction n generalizing j l with
  | zero => simp [padTo]
  | succ n ih =>
    cases l <;> cases j <;> simp only [padTo, List.getD_cons_zero, List.getD_cons_succ, List.getD_nil, ih] <;> simp

theorem fileRead_eq_getD {n : Nat} (v : Vector Byte n) (j : Nat) : fileRead v j = v.toList.getD j 0x00#8 := by
  simp [fileRead, List.getD_eq_getElem?_getD]

theorem fileRead_eq_getElem {n : Nat} (v : Vector Byte n) (j : Nat) (h : j < n) : fileRead v j = v[j] := by
  simp [fileRead, h]

theorem fileRead_beyond {n : Nat} (v : Vector Byte n) (j : Nat) (h : n ≤ j) : fileRead v j = 0x00#8 := by
  simp [fileRead, h]

/-- A file that was loaded with a byte sequence reads as that sequence, and 0x00 beyond it. -/
theorem fileRead_fileOf (n j : Nat) (l : List Byte) :
    fileRead (fileOf n l) j = if j < n then l.getD j 0x00#8 else 0x00#8 := by
  rw [fileRead_eq_getD, ← getD_padTo]; rfl

@[simp] theorem fileRead_replicate (n j : Nat) : fileRead (Vector.replicate n (0x00#8 : Byte)) j = 0x00#8 := by
  rcases Nat.lt_or_ge j n with h | h
  · simp [fileRead_eq_getElem _ _ h]
  · exact fileRead_beyond _ _ h

/-- Read after write, in one register file. -/
theorem fileRead_fileWrite {n : Nat} (v : Vector Byte n) (j k : Nat) (b : Byte) (hj : j < n) :
    fileRead (fileWrite v j b) k = if k = j then b else fileRead v k := by
  rcases Nat.lt_or_ge k n with h | h
  · rw [fileRead_eq_getElem _ _ h, fileRead_eq_getElem _ _ h]
    simp only [fileWrite, Vector.getElem_setIfInBounds, eq_comm]
  · rw [fileRead_beyond _ _ h, fileRead_beyond _ _ h, if_neg (by omega)]

/-- Files are equal when all their registers are. -/
theorem file_ext {n : Nat} {v w : Vector Byte n} (h : ∀ j, j < n → fileRead v j = fileRead w j) : v = w := by
  apply Vector.ext
  intro j hj
  simpa [fileRead_eq_getElem _ _ hj] using h j hj

/-- Read after write, among the four byte registers of a length register. -/
theorem lenByte_setLenByte (w : Len) (j k : Nat) (b : Byte) (hj : j < 4) (hk : k < 4) :
    lenByte (setLenByte w j b) k = if k = j then b else lenByte w k := by
  interval_cases j <;> interval_cases k <;>
    (apply BitVec.eq_of_getLsbD_eq; intro i hi; interval_cases i <;> simp [lenByte, setLenByte])

/-- A length register is the little-endian number of its four byte registers. -/
theorem len_eq_bytes (w : Len) :
    w.toNat = (lenByte w 0).toNat + 256 * (lenByte w 1).toNat + 65536 * (lenByte w 2).toNat + 16777216 * (lenByte w 3).toNat := by
  have := w.isLt
  simp only [lenByte, BitVec.toNat_setWidth, BitVec.toNat_ushiftRight, Nat.shiftRight_eq_div_pow]
  omega

/-- A length register whose byte registers are those of a number is that number. -/
theorem len_ext {v w : Len} (h : ∀ k, k < 4 → lenByte v k = lenByte w k) : v = w := by
  apply BitVec.eq_of_toNat_eq
  rw [len_eq_bytes v, len_eq_bytes w, h 0 (by omega), h 1 (by omega), h 2 (by omega), h 3 (by omega)]

end Machine
end Sys2Proof
end

