-- ==== Sys2Proof/Laws/Algorithm.lean ====
section
/-! SUPPORT. The lengths of what the pure functions give: the key schedule, padding, the chaining loops and the two message functions. -/

namespace Sys2Proof.Machine

/-! ### The key schedule -/

theorem expandLoop_length (nk n i : Nat) (rc : Byte) (words : List Word) :
    (expandLoop nk n i rc words).length = words.length + n := by
  induction n generalizing i rc words with
  | zero => rfl
  | succ n ih => rw [expandLoop, ih, List.length_cons]; omega

theorem expandWords_length (key : List Byte) (h : 1 ≤ key.length / 4) :
    (expandWords key).length = 4 * (roundsOf key.length + 1) := by
  simp only [expandWords, expandLoop_length, roundsOf, List.length_reverse, wordsOf_length]; omega

theorem groupWords_length (words : List Word) : (groupWords words).length = words.length / 4 := by
  match words with
  | [] | [_] | [_, _] | [_, _, _] => simp [groupWords]
  | a :: b :: c :: d :: rest => simp only [groupWords, groupWords_length rest, List.length_cons]; omega

theorem expandKey_length (key : List Byte) (h : 1 ≤ key.length / 4) : (expandKey key).length = key.length / 4 + 7 := by
  rw [expandKey, groupWords_length, expandWords_length key h, roundsOf]; omega

/-! ### Padding -/

theorem padLength_bounds (n : Nat) : 1 ≤ padLength n ∧ padLength n ≤ 16 ∧ (n + padLength n) % 16 = 0 := by
  simp only [padLength]; omega

theorem pad_length (m : List Byte) : (pad m).length = m.length + padLength m.length := by simp [pad]

theorem unpad_length {p m : List Byte} (hp : 16 ≤ p.length) (h : unpad p = .ok m) :
    p.length - 16 ≤ m.length ∧ m.length ≤ p.length - 1 := by
  unfold unpad at h
  simp only at h
  split_ifs at h with h1 h2
  obtain rfl := Except.ok.inj h
  rw [List.length_take]; omega

/-! ### Chaining -/

@[simp] theorem cbcEncrypt_length (rk : List Block) (iv : Block) (ps : List Block) : (cbcEncrypt rk iv ps).length = ps.length := by
  induction ps generalizing iv with
  | nil => rfl
  | cons p ps ih => simp [cbcEncrypt, ih]

@[simp] theorem cbcDecrypt_length (rk : List Block) (iv : Block) (cs : List Block) : (cbcDecrypt rk iv cs).length = cs.length := by
  induction cs generalizing iv with
  | nil => rfl
  | cons c cs ih => simp [cbcDecrypt, ih]

/-! ### The message functions -/

/-- With a valid key a message always encrypts, to the padded length. -/
theorem encryptMessage_ok (m key : List Byte) (iv : Block) (h : keyLengthValid key.length = true) :
    ∃ out, encryptMessage m key iv = .ok out ∧ out.length = m.length + padLength m.length := by
  refine ⟨_, by simp only [encryptMessage, h, if_true]; rfl, ?_⟩
  rw [bytesOf_length, cbcEncrypt_length, blocksOf_length, pad_length]
  have := (padLength_bounds m.length).2.2
  omega

/-- A message that decrypts is 1 to 16 bytes shorter than its ciphertext. -/
theorem decryptMessage_length {c key m : List Byte} {iv : Block} (h : decryptMessage c key iv = .ok m) :
    c.length - 16 ≤ m.length ∧ m.length ≤ c.length - 1 := by
  unfold decryptMessage at h
  split_ifs at h with h1 h2
  have hl : (bytesOf (cbcDecrypt (expandKey key) iv (blocksOf (c.length / 16) c))).length = c.length := by
    rw [bytesOf_length, cbcDecrypt_length, blocksOf_length]; omega
  have := unpad_length (by omega) h
  rwa [hl] at this

end Sys2Proof.Machine
end

