-- ==== Sys2Proof/Laws/Memory.lean ====
section
/-! SUPPORT. Laws of the buffers: every operation keeps the canonical form; read after write; what a filled buffer reads as. -/

namespace Sys2Proof.Machine

@[simp] theorem Memory.read_nil (a : Nat) : Memory.read [] a = 0x00#8 := rfl

@[simp] theorem Memory.wf_nil (n : Nat) : Memory.wf n [] = true := rfl

/-- What the canonical form says of a buffer with a first entry. -/
theorem Memory.wfIn_cons {lo hi k : Nat} {b : Byte} {m : Memory} :
    Memory.wfIn lo hi ((k, b) :: m) = true ↔ lo ≤ k ∧ k < hi ∧ b ≠ 0x00#8 ∧ Memory.wfIn (k + 1) hi m = true := by
  simp [Memory.wfIn, unlistedByte, and_assoc]

theorem Memory.wfIn_mono {lo lo' hi hi' : Nat} {m : Memory} (h : Memory.wfIn lo hi m = true) (hlo : lo' ≤ lo) (hhi : hi ≤ hi') :
    Memory.wfIn lo' hi' m = true := by
  induction m generalizing lo lo' with
  | nil => rfl
  | cons e m ih =>
    obtain ⟨k, b⟩ := e
    rw [Memory.wfIn_cons] at h ⊢
    exact ⟨by omega, by omega, h.2.2.1, ih h.2.2.2 (le_refl _)⟩

/-- A buffer in canonical form reads as 0x00 outside its range. -/
theorem Memory.read_outside {lo hi : Nat} {m : Memory} (h : Memory.wfIn lo hi m = true) {a : Nat} (ha : a < lo ∨ hi ≤ a) :
    m.read a = 0x00#8 := by
  induction m generalizing lo with
  | nil => rfl
  | cons e m ih =>
    obtain ⟨k, b⟩ := e
    rw [Memory.wfIn_cons] at h
    rw [Memory.read, if_neg (by omega)]
    exact ih h.2.2.2 (by omega)

/-- A write within the range keeps the canonical form. -/
theorem Memory.wfIn_write {lo hi : Nat} {m : Memory} (h : Memory.wfIn lo hi m = true) {a : Nat} (v : Byte) (hlo : lo ≤ a) (hhi : a < hi) :
    Memory.wfIn lo hi (m.write a v) = true := by
  induction m generalizing lo with
  | nil =>
    rw [Memory.write]
    split
    · rfl
    · rename_i hv; exact Memory.wfIn_cons.mpr ⟨hlo, hhi, hv, rfl⟩
  | cons e m ih =>
    obtain ⟨k, b⟩ := e
    have h' := Memory.wfIn_cons.mp h
    rw [Memory.write]
    split_ifs with h1 h2 h3 h4
    · exact h
    · exact Memory.wfIn_cons.mpr ⟨hlo, hhi, h2, Memory.wfIn_cons.mpr ⟨h1, h'.2.1, h'.2.2.1, h'.2.2.2⟩⟩
    · exact Memory.wfIn_mono h'.2.2.2 (by omega) (le_refl _)
    · subst h3; exact Memory.wfIn_cons.mpr ⟨hlo, hhi, h4, h'.2.2.2⟩
    · exact Memory.wfIn_cons.mpr ⟨h'.1, h'.2.1, h'.2.2.1, ih h'.2.2.2 (by omega)⟩

theorem Memory.wf_write {cap : Nat} {m : Memory} (h : m.wf cap = true) {a : Nat} (v : Byte) (ha : a < cap) :
    (m.write a v).wf cap = true :=
  Memory.wfIn_write h v (Nat.zero_le a) ha

theorem Memory.read_cons (k : Nat) (c : Byte) (m : Memory) (b : Nat) :
    Memory.read ((k, c) :: m) b = if b = k then c else Memory.read m b := rfl

/-- Read after write. -/
theorem Memory.read_write {lo hi : Nat} {m : Memory} (h : Memory.wfIn lo hi m = true) (a : Nat) (v : Byte) (b : Nat) :
    Memory.read (Memory.write m a v) b = if b = a then v else Memory.read m b := by
  induction m generalizing lo with
  | nil =>
    rw [Memory.write]
    split_ifs with h1 h2 h2
    · rw [h1]; rfl
    · rfl
    · rw [Memory.read_cons, if_pos h2]
    · rw [Memory.read_cons, if_neg h2]
  | cons e m ih =>
    obtain ⟨k, c⟩ := e
    have h' := Memory.wfIn_cons.mp h
    have outside : ∀ x, x ≤ k → Memory.read m x = 0x00#8 := fun x hx => Memory.read_outside h'.2.2.2 (by omega)
    rw [Memory.write]
    rcases Nat.lt_trichotomy a k with hak | hak | hak
    · rw [if_pos hak]
      by_cases hv : v = unlistedByte
      · rw [if_pos hv, Memory.read_cons]
        split_ifs with h1 h2 h2
        · omega
        · rfl
        · rw [outside b (by omega), hv]; rfl
        · rfl
      · rw [if_neg hv, Memory.read_cons]
    · subst hak
      rw [if_neg (by omega), if_pos rfl]
      by_cases hv : v = unlistedByte
      · rw [if_pos hv]
        split_ifs with h1
        · rw [outside b (by omega), hv]; rfl
        · rw [Memory.read_cons, if_neg h1]
      · rw [if_neg hv, Memory.read_cons, Memory.read_cons]
        split_ifs <;> rfl
    · rw [if_neg (by omega), if_neg (by omega), Memory.read_cons, Memory.read_cons, ih h'.2.2.2]
      split_ifs with h1 h2 <;> first | rfl | omega

/-- A buffer filled from index `start` is in canonical form. -/
theorem Memory.wfIn_ofBytes (l : List Byte) (start hi : Nat) (h : start + l.length ≤ hi) :
    Memory.wfIn start hi (Memory.ofBytes start l) = true := by
  induction l generalizing start with
  | nil => rfl
  | cons b l ih =>
    have hl : start + 1 + l.length ≤ hi := by rw [List.length_cons] at h; omega
    rw [Memory.ofBytes]
    split
    · exact Memory.wfIn_mono (ih _ hl) (by omega) (le_refl _)
    · rename_i hb; exact Memory.wfIn_cons.mpr ⟨le_refl _, by omega, hb, ih _ hl⟩

theorem Memory.wf_ofBytes (l : List Byte) (cap : Nat) (h : l.length ≤ cap) : (Memory.ofBytes 0 l).wf cap = true :=
  Memory.wfIn_ofBytes l 0 cap (by omega)

/-- A filled buffer reads as its byte sequence, and 0x00 beyond it. -/
theorem Memory.read_ofBytes (l : List Byte) (start a : Nat) :
    (Memory.ofBytes start l).read a = if start ≤ a then l.getD (a - start) 0x00#8 else 0x00#8 := by
  induction l generalizing start with
  | nil => simp [Memory.ofBytes]
  | cons b l ih =>
    have key : (Memory.ofBytes start (b :: l)).read a = if a = start then b else (Memory.ofBytes (start + 1) l).read a := by
      rw [Memory.ofBytes]
      split_ifs with h1 h2 h2
      · rw [ih, if_neg (by omega), h1]; rfl
      · rfl
      · simp [Memory.read, h2]
      · simp [Memory.read, h2]
    rw [key, ih]
    rcases Nat.lt_trichotomy a start with h | h | h
    · rw [if_neg (by omega), if_neg (by omega), if_neg (by omega)]
    · subst h; simp
    · rw [if_neg (by omega), if_pos (by omega), if_pos (by omega), show a - start = (a - (start + 1)) + 1 by omega,
        List.getD_cons_succ]

theorem Memory.read_ofBytes_zero (l : List Byte) (a : Nat) : (Memory.ofBytes 0 l).read a = l.getD a 0x00#8 := by
  simpa using Memory.read_ofBytes l 0 a

@[simp] theorem Memory.readBytes_length (m : Memory) (start n : Nat) : (m.readBytes start n).length = n := by
  induction n generalizing start with
  | zero => rfl
  | succ n ih => simp [Memory.readBytes, ih]

theorem Memory.getD_readBytes (m : Memory) (start n j : Nat) (h : j < n) :
    (m.readBytes start n).getD j 0x00#8 = m.read (start + j) := by
  induction n generalizing start j with
  | zero => omega
  | succ n ih =>
    cases j with
    | zero => rfl
    | succ j =>
      rw [Memory.readBytes, List.getD_cons_succ, ih _ _ (by omega)]
      congr 1; omega

/-- The bytes read are a given sequence when they agree with it byte by byte. -/
theorem Memory.readBytes_eq {m : Memory} {l : List Byte} (h : ∀ j, j < l.length → m.read j = l.getD j 0x00#8) :
    m.readBytes 0 l.length = l := by
  apply List.ext_getElem (by simp)
  intro j h1 h2
  have := Memory.getD_readBytes m 0 l.length j h2
  rw [List.getD_eq_getElem _ _ h1, Nat.zero_add, h j h2, List.getD_eq_getElem _ _ h2] at this
  exact this

theorem Memory.readBytes_congr {m m' : Memory} {n : Nat} (h : ∀ j, j < n → m.read j = m'.read j) :
    m.readBytes 0 n = m'.readBytes 0 n := by
  apply List.ext_getElem (by simp)
  intro j h1 h2
  have hj : j < n := by simpa using h1
  have e := Memory.getD_readBytes m 0 n j hj
  have e' := Memory.getD_readBytes m' 0 n j hj
  rw [List.getD_eq_getElem _ _ h1] at e
  rw [List.getD_eq_getElem _ _ h2] at e'
  rw [e, e', Nat.zero_add, h j hj]

end Sys2Proof.Machine
end

