-- ==== Sys2Proof/Laws/State.lean ====
section
/-! SUPPORT. One lemma per field per named update of the state, and the laws of the two flags of STATUS. -/

namespace Sys2Proof.Machine

/-! ### The flags -/

@[simp] theorem getElem_zero_withKvalid (st : Byte) (b : Bool) : (withKvalid st b)[0] = b := by
  cases b <;> simp [withKvalid]

@[simp] theorem getElem_one_withKvalid (st : Byte) (b : Bool) : (withKvalid st b)[1] = st[1] := by
  cases b <;> simp [withKvalid]

@[simp] theorem getElem_zero_withErrf (st : Byte) (b : Bool) : (withErrf st b)[0] = st[0] := by
  cases b <;> simp [withErrf]

@[simp] theorem getElem_one_withErrf (st : Byte) (b : Bool) : (withErrf st b)[1] = b := by
  cases b <;> simp [withErrf]

/-- Writing KVALID keeps the reserved bits. -/
theorem withKvalid_reserved (st : Byte) (b : Bool) : withKvalid st b &&& 0xFC#8 = st &&& 0xFC#8 := by
  cases b <;> apply BitVec.eq_of_getLsbD_eq <;> intro i hi <;> interval_cases i <;> simp [withKvalid]

/-- Writing ERRF keeps the reserved bits. -/
theorem withErrf_reserved (st : Byte) (b : Bool) : withErrf st b &&& 0xFC#8 = st &&& 0xFC#8 := by
  cases b <;> apply BitVec.eq_of_getLsbD_eq <;> intro i hi <;> interval_cases i <;> simp [withErrf]

/-- Writing ERRF keeps every other bit. -/
theorem withErrf_rest (st : Byte) (b : Bool) : withErrf st b &&& 0xFD#8 = st &&& 0xFD#8 := by
  cases b <;> apply BitVec.eq_of_getLsbD_eq <;> intro i hi <;> interval_cases i <;> simp [withErrf]

/-- Writing ERRF again replaces it. -/
@[simp] theorem withErrf_withErrf (st : Byte) (b c : Bool) : withErrf (withErrf st b) c = withErrf st c := by
  cases b <;> cases c <;> apply BitVec.eq_of_getLsbD_eq <;> intro i hi <;> interval_cases i <;> simp [withErrf]

/-- Writing KVALID again replaces it, whatever was done to ERRF between. -/
@[simp] theorem withKvalid_withErrf_withKvalid (st : Byte) (b c d : Bool) :
    withKvalid (withErrf (withKvalid st b) c) d = withErrf (withKvalid st d) c := by
  cases b <;> cases c <;> cases d <;> apply BitVec.eq_of_getLsbD_eq <;> intro i hi <;> interval_cases i <;>
    simp [withErrf, withKvalid]

/-- No error's code is 0x00. -/
theorem ErrorKind.code_ne_zero (e : ErrorKind) : e.code ≠ 0x00#8 := by cases e <;> decide

/-! ### The updates, field by field -/

@[simp] theorem State.fail_key (e : ErrorKind) (s : State) : (s.fail e).key = s.key := rfl
@[simp] theorem State.fail_keylen (e : ErrorKind) (s : State) : (s.fail e).keylen = s.keylen := rfl
@[simp] theorem State.fail_iv (e : ErrorKind) (s : State) : (s.fail e).iv = s.iv := rfl
@[simp] theorem State.fail_ilen (e : ErrorKind) (s : State) : (s.fail e).ilen = s.ilen := rfl
@[simp] theorem State.fail_ibuf (e : ErrorKind) (s : State) : (s.fail e).ibuf = s.ibuf := rfl
@[simp] theorem State.fail_obuf (e : ErrorKind) (s : State) : (s.fail e).obuf = [] := rfl
@[simp] theorem State.fail_olen (e : ErrorKind) (s : State) : (s.fail e).olen = 0#32 := rfl
@[simp] theorem State.fail_rk (e : ErrorKind) (s : State) : (s.fail e).rk = s.rk := rfl
@[simp] theorem State.fail_rounds (e : ErrorKind) (s : State) : (s.fail e).rounds = s.rounds := rfl
@[simp] theorem State.fail_status (e : ErrorKind) (s : State) : (s.fail e).status = withErrf s.status true := rfl
@[simp] theorem State.fail_err (e : ErrorKind) (s : State) : (s.fail e).err = e.code := rfl
@[simp] theorem State.fail_msgMax (e : ErrorKind) (s : State) : (s.fail e).msgMax = s.msgMax := rfl
@[simp] theorem State.fail_pending (e : ErrorKind) (s : State) : (s.fail e).pending = s.pending := rfl
@[simp] theorem State.fail_trace (e : ErrorKind) (s : State) : (s.fail e).trace = s.trace := rfl

@[simp] theorem State.complete_key (out : List Byte) (s : State) : (s.complete out).key = s.key := rfl
@[simp] theorem State.complete_keylen (out : List Byte) (s : State) : (s.complete out).keylen = s.keylen := rfl
@[simp] theorem State.complete_iv (out : List Byte) (s : State) : (s.complete out).iv = s.iv := rfl
@[simp] theorem State.complete_ilen (out : List Byte) (s : State) : (s.complete out).ilen = s.ilen := rfl
@[simp] theorem State.complete_ibuf (out : List Byte) (s : State) : (s.complete out).ibuf = s.ibuf := rfl
@[simp] theorem State.complete_obuf (out : List Byte) (s : State) : (s.complete out).obuf = Memory.ofBytes 0 out := rfl
@[simp] theorem State.complete_olen (out : List Byte) (s : State) : (s.complete out).olen = BitVec.ofNat 32 out.length := rfl
@[simp] theorem State.complete_rk (out : List Byte) (s : State) : (s.complete out).rk = s.rk := rfl
@[simp] theorem State.complete_rounds (out : List Byte) (s : State) : (s.complete out).rounds = s.rounds := rfl
@[simp] theorem State.complete_status (out : List Byte) (s : State) : (s.complete out).status = withErrf s.status false := rfl
@[simp] theorem State.complete_err (out : List Byte) (s : State) : (s.complete out).err = 0x00#8 := rfl
@[simp] theorem State.complete_msgMax (out : List Byte) (s : State) : (s.complete out).msgMax = s.msgMax := rfl
@[simp] theorem State.complete_pending (out : List Byte) (s : State) : (s.complete out).pending = s.pending := rfl
@[simp] theorem State.complete_trace (out : List Byte) (s : State) : (s.complete out).trace = s.trace := rfl

@[simp] theorem State.clearSchedule_key (s : State) : (s.clearSchedule).key = s.key := rfl
@[simp] theorem State.clearSchedule_keylen (s : State) : (s.clearSchedule).keylen = s.keylen := rfl
@[simp] theorem State.clearSchedule_iv (s : State) : (s.clearSchedule).iv = s.iv := rfl
@[simp] theorem State.clearSchedule_ilen (s : State) : (s.clearSchedule).ilen = s.ilen := rfl
@[simp] theorem State.clearSchedule_ibuf (s : State) : (s.clearSchedule).ibuf = s.ibuf := rfl
@[simp] theorem State.clearSchedule_obuf (s : State) : (s.clearSchedule).obuf = s.obuf := rfl
@[simp] theorem State.clearSchedule_olen (s : State) : (s.clearSchedule).olen = s.olen := rfl
@[simp] theorem State.clearSchedule_rk (s : State) : (s.clearSchedule).rk = Vector.replicate 240 0x00#8 := rfl
@[simp] theorem State.clearSchedule_rounds (s : State) : (s.clearSchedule).rounds = 0x00#8 := rfl
@[simp] theorem State.clearSchedule_status (s : State) : (s.clearSchedule).status = withKvalid s.status false := rfl
@[simp] theorem State.clearSchedule_err (s : State) : (s.clearSchedule).err = s.err := rfl
@[simp] theorem State.clearSchedule_msgMax (s : State) : (s.clearSchedule).msgMax = s.msgMax := rfl
@[simp] theorem State.clearSchedule_pending (s : State) : (s.clearSchedule).pending = s.pending := rfl
@[simp] theorem State.clearSchedule_trace (s : State) : (s.clearSchedule).trace = s.trace := rfl

@[simp] theorem State.storeSchedule_key (s : State) : (s.storeSchedule).key = s.key := rfl
@[simp] theorem State.storeSchedule_keylen (s : State) : (s.storeSchedule).keylen = s.keylen := rfl
@[simp] theorem State.storeSchedule_iv (s : State) : (s.storeSchedule).iv = s.iv := rfl
@[simp] theorem State.storeSchedule_ilen (s : State) : (s.storeSchedule).ilen = s.ilen := rfl
@[simp] theorem State.storeSchedule_ibuf (s : State) : (s.storeSchedule).ibuf = s.ibuf := rfl
@[simp] theorem State.storeSchedule_obuf (s : State) : (s.storeSchedule).obuf = s.obuf := rfl
@[simp] theorem State.storeSchedule_olen (s : State) : (s.storeSchedule).olen = s.olen := rfl
@[simp] theorem State.storeSchedule_rk (s : State) : (s.storeSchedule).rk = fileOf 240 (bytesOf (expandKey s.keyBytes)) := rfl
@[simp] theorem State.storeSchedule_rounds (s : State) : (s.storeSchedule).rounds = BitVec.ofNat 8 (roundsOf s.keylen.toNat) := rfl
@[simp] theorem State.storeSchedule_status (s : State) : (s.storeSchedule).status = withKvalid s.status true := rfl
@[simp] theorem State.storeSchedule_err (s : State) : (s.storeSchedule).err = s.err := rfl
@[simp] theorem State.storeSchedule_msgMax (s : State) : (s.storeSchedule).msgMax = s.msgMax := rfl
@[simp] theorem State.storeSchedule_pending (s : State) : (s.storeSchedule).pending = s.pending := rfl
@[simp] theorem State.storeSchedule_trace (s : State) : (s.storeSchedule).trace = s.trace := rfl

@[simp] theorem State.record_key (e : PortEvent) (s : State) : (s.record e).key = s.key := rfl
@[simp] theorem State.record_keylen (e : PortEvent) (s : State) : (s.record e).keylen = s.keylen := rfl
@[simp] theorem State.record_iv (e : PortEvent) (s : State) : (s.record e).iv = s.iv := rfl
@[simp] theorem State.record_ilen (e : PortEvent) (s : State) : (s.record e).ilen = s.ilen := rfl
@[simp] theorem State.record_ibuf (e : PortEvent) (s : State) : (s.record e).ibuf = s.ibuf := rfl
@[simp] theorem State.record_obuf (e : PortEvent) (s : State) : (s.record e).obuf = s.obuf := rfl
@[simp] theorem State.record_olen (e : PortEvent) (s : State) : (s.record e).olen = s.olen := rfl
@[simp] theorem State.record_rk (e : PortEvent) (s : State) : (s.record e).rk = s.rk := rfl
@[simp] theorem State.record_rounds (e : PortEvent) (s : State) : (s.record e).rounds = s.rounds := rfl
@[simp] theorem State.record_status (e : PortEvent) (s : State) : (s.record e).status = s.status := rfl
@[simp] theorem State.record_err (e : PortEvent) (s : State) : (s.record e).err = s.err := rfl
@[simp] theorem State.record_msgMax (e : PortEvent) (s : State) : (s.record e).msgMax = s.msgMax := rfl
@[simp] theorem State.record_pending (e : PortEvent) (s : State) : (s.record e).pending = s.pending := rfl
@[simp] theorem State.record_trace (e : PortEvent) (s : State) : (s.record e).trace = e :: s.trace := rfl

@[simp] theorem State.resetEvent_key (s : State) : (s.resetEvent).key = State.reset.key := rfl
@[simp] theorem State.resetEvent_keylen (s : State) : (s.resetEvent).keylen = State.reset.keylen := rfl
@[simp] theorem State.resetEvent_iv (s : State) : (s.resetEvent).iv = State.reset.iv := rfl
@[simp] theorem State.resetEvent_ilen (s : State) : (s.resetEvent).ilen = State.reset.ilen := rfl
@[simp] theorem State.resetEvent_ibuf (s : State) : (s.resetEvent).ibuf = State.reset.ibuf := rfl
@[simp] theorem State.resetEvent_obuf (s : State) : (s.resetEvent).obuf = State.reset.obuf := rfl
@[simp] theorem State.resetEvent_olen (s : State) : (s.resetEvent).olen = State.reset.olen := rfl
@[simp] theorem State.resetEvent_rk (s : State) : (s.resetEvent).rk = State.reset.rk := rfl
@[simp] theorem State.resetEvent_rounds (s : State) : (s.resetEvent).rounds = State.reset.rounds := rfl
@[simp] theorem State.resetEvent_status (s : State) : (s.resetEvent).status = State.reset.status := rfl
@[simp] theorem State.resetEvent_err (s : State) : (s.resetEvent).err = State.reset.err := rfl
@[simp] theorem State.resetEvent_msgMax (s : State) : (s.resetEvent).msgMax = s.msgMax := rfl
@[simp] theorem State.resetEvent_pending (s : State) : (s.resetEvent).pending = s.pending := rfl
@[simp] theorem State.resetEvent_trace (s : State) : (s.resetEvent).trace = s.trace := rfl

@[simp] theorem State.fail_kvalid (e : ErrorKind) (s : State) : (s.fail e).kvalid = s.kvalid := by simp [State.kvalid]
@[simp] theorem State.fail_errf (e : ErrorKind) (s : State) : (s.fail e).errf = true := by simp [State.errf]
@[simp] theorem State.complete_kvalid (out : List Byte) (s : State) : (s.complete out).kvalid = s.kvalid := by simp [State.kvalid]
@[simp] theorem State.complete_errf (out : List Byte) (s : State) : (s.complete out).errf = false := by simp [State.errf]
@[simp] theorem State.clearSchedule_kvalid (s : State) : s.clearSchedule.kvalid = false := by simp [State.kvalid]
@[simp] theorem State.storeSchedule_kvalid (s : State) : s.storeSchedule.kvalid = true := by simp [State.kvalid]

@[simp] theorem State.clearSchedule_keyBytes (s : State) : s.clearSchedule.keyBytes = s.keyBytes := rfl
@[simp] theorem State.storeSchedule_keyBytes (s : State) : s.storeSchedule.keyBytes = s.keyBytes := rfl
@[simp] theorem State.storeSchedule_message (s : State) : s.storeSchedule.message = s.message := rfl
@[simp] theorem State.storeSchedule_ivBlock (s : State) : s.storeSchedule.ivBlock = s.ivBlock := rfl

end Sys2Proof.Machine
end

