-- ==== Sys2Proof/Laws/Commands.lean ====
section
/-! SUPPORT. What the shared operations and the commands can do, said once: the ends of a command, the operands as bytes, and one equation per command. -/

namespace Sys2Proof.Machine

/-! ### The ends of a command -/

/-- Everything `State.fail` does to the result registers. -/
theorem State.fail_failed (e : ErrorKind) (s : State) : Failed (s.fail e) e.code :=
  ⟨rfl, by simp, rfl, fun _ => rfl⟩

/-- Everything `State.complete` does to the result registers, for a result whose length fits OLEN. -/
theorem State.complete_succeeded (out : List Byte) (s : State) (h : out.length < 2 ^ 32) : Succeeded (s.complete out) out where
  err := rfl
  errf := by simp
  olen := by simpa using Nat.mod_eq_of_lt h
  result := fun j _ => by rw [State.complete_obuf, Memory.read_ofBytes_zero]
  beyond := fun j hj => by rw [State.complete_obuf, Memory.read_ofBytes_zero, List.getD_eq_default _ _ hj]

theorem State.fail_sameInputs (e : ErrorKind) (s : State) : SameInputs s (s.fail e) := ⟨rfl, rfl, rfl, rfl, rfl, rfl, rfl, rfl⟩

theorem State.complete_sameInputs (out : List Byte) (s : State) : SameInputs s (s.complete out) :=
  ⟨rfl, rfl, rfl, rfl, rfl, rfl, rfl, rfl⟩

theorem State.fail_sameSchedule (e : ErrorKind) (s : State) : SameSchedule s (s.fail e) := ⟨rfl, rfl, withErrf_rest _ _⟩

theorem State.complete_sameSchedule (out : List Byte) (s : State) : SameSchedule s (s.complete out) := ⟨rfl, rfl, withErrf_rest _ _⟩

theorem SameInputs.trans {s t u : State} (h : SameInputs s t) (h' : SameInputs t u) : SameInputs s u :=
  ⟨h'.key.trans h.key, h'.keylen.trans h.keylen, h'.iv.trans h.iv, h'.ilen.trans h.ilen, h'.ibuf.trans h.ibuf,
    h'.msgMax.trans h.msgMax, h'.pending.trans h.pending, h'.trace.trans h.trace⟩

/-- The two ways a command that ends through `State.finish` ends. -/
theorem State.finish_cases (r : Except ErrorKind (List Byte)) (s : State) :
    (∃ out, r = .ok out ∧ s.finish r = s.complete out) ∨ (∃ e, r = .error e ∧ s.finish r = s.fail e) := by
  cases r with
  | ok out => exact .inl ⟨out, rfl, rfl⟩
  | error e => exact .inr ⟨e, rfl, rfl⟩

/-! ### Loading the schedule -/

theorem loadSchedule_valid {s : State} (h : keyLengthValid s.keylen.toNat = true) : loadSchedule s = (true, s.storeSchedule) := by
  simp [loadSchedule, h]

theorem loadSchedule_invalid {s : State} (h : keyLengthValid s.keylen.toNat = false) : loadSchedule s = (false, s.clearSchedule) := by
  simp [loadSchedule, h]

theorem keyLengthValid_iff (n : Nat) : keyLengthValid n = true ↔ n = 16 ∨ n = 24 ∨ n = 32 := by
  simp [keyLengthValid, or_assoc]

theorem State.storeSchedule_sameInputs (s : State) : SameInputs s s.storeSchedule := ⟨rfl, rfl, rfl, rfl, rfl, rfl, rfl, rfl⟩

theorem State.clearSchedule_sameInputs (s : State) : SameInputs s s.clearSchedule := ⟨rfl, rfl, rfl, rfl, rfl, rfl, rfl, rfl⟩

/-! ### The operands -/

theorem State.keyBytes_length {s : State} (h : s.keylen.toNat ≤ 32) : s.keyBytes.length = s.keylen.toNat := by
  simp [State.keyBytes, h]

theorem State.keyBytes_length_of_valid {s : State} (h : keyLengthValid s.keylen.toNat = true) :
    s.keyBytes.length = s.keylen.toNat :=
  State.keyBytes_length (by rcases (keyLengthValid_iff _).mp h with h | h | h <;> omega)

@[simp] theorem State.message_length (s : State) : s.message.length = s.ilen.toNat := by simp [State.message]

/-! ### One equation per command -/

theorem exec_expandkey_valid {s : State} (h : keyLengthValid s.keylen.toNat = true) :
    exec .expandkey s = .next (s.storeSchedule.complete []) := by
  simp only [exec, execExpandkey, loadSchedule_valid h]

theorem exec_expandkey_invalid {s : State} (h : keyLengthValid s.keylen.toNat = false) :
    exec .expandkey s = .next (s.clearSchedule.fail .invalidKeyLength) := by
  simp only [exec, execExpandkey, loadSchedule_invalid h]

theorem exec_encblk (s : State) : exec .encblk s = .next (blockCommand encryptBlock s) := rfl

theorem exec_decblk (s : State) : exec .decblk s = .next (blockCommand decryptBlock s) := rfl

theorem blockCommand_ok {s : State} (f : Block → List Block → Block) (h : s.ilen = 16#32) (hk : s.kvalid = true) :
    blockCommand f s = s.complete (f s.inputBlock s.schedule).toBytes := by
  simp [blockCommand, h, hk]

/-- The three ways a block command ends. -/
theorem blockCommand_cases (f : Block → List Block → Block) (s : State) :
    (s.ilen ≠ 16#32 ∧ blockCommand f s = s.fail .invalidBlockLength) ∨
    (s.ilen = 16#32 ∧ s.kvalid = false ∧ blockCommand f s = s.fail .noSchedule) ∨
    (s.ilen = 16#32 ∧ s.kvalid = true ∧ blockCommand f s = s.complete (f s.inputBlock s.schedule).toBytes) := by
  by_cases h : s.ilen = 16#32 <;> cases hk : s.kvalid <;> simp [blockCommand, h, hk]

theorem exec_encmsg (s : State) :
    exec .encmsg s = .next (messageCommand (fun s => encryptMessage s.message s.keyBytes s.ivBlock) s) := rfl

theorem exec_decmsg (s : State) : exec .decmsg s = .next (messageCommand decmsgBody s) := rfl

/-- The three ways a message command ends. -/
theorem messageCommand_cases (body : State → Except ErrorKind (List Byte)) (s : State) :
    (s.msgMax < s.ilen.toNat ∧ messageCommand body s = s.fail .messageTooLong) ∨
    (s.ilen.toNat ≤ s.msgMax ∧ keyLengthValid s.keylen.toNat = false ∧
      messageCommand body s = s.clearSchedule.fail .invalidKeyLength) ∨
    (s.ilen.toNat ≤ s.msgMax ∧ keyLengthValid s.keylen.toNat = true ∧
      messageCommand body s = s.storeSchedule.finish (body s.storeSchedule)) := by
  rcases Nat.lt_or_ge s.msgMax s.ilen.toNat with h | h
  · exact .inl ⟨h, by simp [messageCommand, h]⟩
  · cases hk : keyLengthValid s.keylen.toNat
    · exact .inr (.inl ⟨h, rfl, by simp [messageCommand, Nat.not_lt.mpr h, loadSchedule_invalid hk]⟩)
    · exact .inr (.inr ⟨h, rfl, by simp [messageCommand, Nat.not_lt.mpr h, loadSchedule_valid hk]⟩)

/-- Every command answers a next state. -/
theorem exec_total (i : Instr) (s : State) : ∃ t, exec i s = .next t := by
  cases i
  case expandkey =>
    cases h : keyLengthValid s.keylen.toNat
    · exact ⟨_, exec_expandkey_invalid h⟩
    · exact ⟨_, exec_expandkey_valid h⟩
  all_goals exact ⟨_, rfl⟩

/-- A result of ENCMSG fits OBUF. -/
theorem encmsg_result_length {s : State} {out : List Byte} (hl : s.ilen.toNat ≤ s.msgMax) (hk : keyLengthValid s.keylen.toNat = true)
    (h : encryptMessage s.message s.keyBytes s.ivBlock = .ok out) : out.length ≤ s.msgMax + 16 := by
  obtain ⟨o, ho, hlen⟩ := encryptMessage_ok s.message s.keyBytes s.ivBlock (by rw [State.keyBytes_length_of_valid hk]; exact hk)
  obtain rfl := Except.ok.inj (ho.symm.trans h)
  have := (padLength_bounds s.message.length).2.1
  rw [State.message_length] at *
  omega

/-- A result of DECMSG fits OBUF. -/
theorem decmsg_result_length {s : State} {out : List Byte} (hl : s.ilen.toNat ≤ s.msgMax) (h : decmsgBody s = .ok out) :
    out.length ≤ s.msgMax + 16 := by
  unfold decmsgBody at h
  split_ifs at h with h1
  have := decryptMessage_length h
  rw [State.message_length] at this
  omega

/-- What a command can do to the state, said once: it fails, or completes with a result that fits OBUF, on a state whose schedule is as it was, stored
or cleared. -/
theorem exec_cases {i : Instr} {s t : State} (h : exec i s = .next t) :
    ∃ u, (u = s ∨ ((i ≠ .encblk ∧ i ≠ .decblk) ∧
        ((keyLengthValid s.keylen.toNat = true ∧ u = s.storeSchedule) ∨
          (keyLengthValid s.keylen.toNat = false ∧ u = s.clearSchedule)))) ∧
      ((∃ e, t = u.fail e) ∨ ∃ out, out.length ≤ s.msgMax + 16 ∧ t = u.complete out) := by
  cases i
  case expandkey =>
    cases hk : keyLengthValid s.keylen.toNat
    · rw [exec_expandkey_invalid hk] at h
      exact ⟨s.clearSchedule, .inr ⟨by simp, .inr ⟨rfl, rfl⟩⟩, .inl ⟨_, (Host.Outcome.next.inj h).symm⟩⟩
    · rw [exec_expandkey_valid hk] at h
      exact ⟨s.storeSchedule, .inr ⟨by simp, .inl ⟨rfl, rfl⟩⟩, .inr ⟨_, by simp, (Host.Outcome.next.inj h).symm⟩⟩
  case encblk | decblk =>
    obtain rfl := Host.Outcome.next.inj h
    refine ⟨s, .inl rfl, ?_⟩
    rcases blockCommand_cases _ s with ⟨_, e⟩ | ⟨_, _, e⟩ | ⟨_, _, e⟩
    · exact .inl ⟨_, e⟩
    · exact .inl ⟨_, e⟩
    · exact .inr ⟨_, by simp, e⟩
  case encmsg | decmsg =>
    obtain rfl := Host.Outcome.next.inj h
    rcases messageCommand_cases _ s with ⟨_, e⟩ | ⟨_, hk, e⟩ | ⟨hl, hk, e⟩
    · exact ⟨s, .inl rfl, .inl ⟨_, e⟩⟩
    · exact ⟨s.clearSchedule, .inr ⟨by simp, .inr ⟨hk, rfl⟩⟩, .inl ⟨_, e⟩⟩
    · refine ⟨s.storeSchedule, .inr ⟨by simp, .inl ⟨hk, rfl⟩⟩, ?_⟩
      rcases State.finish_cases _ s.storeSchedule with ⟨out, ho, e'⟩ | ⟨k, _, e'⟩
      · refine .inr ⟨out, ?_, e.trans e'⟩
        first | exact encmsg_result_length hl hk ho | exact decmsg_result_length hl ho
      · exact .inl ⟨k, e.trans e'⟩

end Sys2Proof.Machine
end

