-- ==== Sys2Proof/Laws/PerInstr.lean ====
section
/-! SUPPORT. The statement made of every command, one lemma per constructor: the command is well formed and its encoding is the row of the opcode table that
names it, inside the range of legal opcodes (spec/30_encoding.md R81, R83). -/

namespace Sys2Proof.Laws.Opcode

def Statement (i : Instr) : Prop :=
  i.wf = true ∧ 0x01 ≤ (encode i).toNat ∧ (encode i).toNat ≤ 0x05 ∧ ∃ r ∈ opcodeTable, r.instr = i ∧ r.pattern = encode i

theorem expandkey : Statement .expandkey := ⟨rfl, by decide, by decide, ⟨0xFF#8, 0x01#8, .expandkey⟩, by decide⟩

theorem encblk : Statement .encblk := ⟨rfl, by decide, by decide, ⟨0xFF#8, 0x02#8, .encblk⟩, by decide⟩

theorem decblk : Statement .decblk := ⟨rfl, by decide, by decide, ⟨0xFF#8, 0x03#8, .decblk⟩, by decide⟩

theorem encmsg : Statement .encmsg := ⟨rfl, by decide, by decide, ⟨0xFF#8, 0x04#8, .encmsg⟩, by decide⟩

theorem decmsg : Statement .decmsg := ⟨rfl, by decide, by decide, ⟨0xFF#8, 0x05#8, .decmsg⟩, by decide⟩

end Sys2Proof.Laws.Opcode
end

