-- ==== Sys2Proof/Laws/Port.lean ====
section
/-! SUPPORT. Laws of the host port: the address map range by range, the map and the addresses of locations inverse to each other, and what a read, a write and
a step can do, said once. -/

namespace Sys2Proof.Machine

theorem msgMaxLegal_iff (m : Nat) : msgMaxLegal m = true ↔ 16 ≤ m ∧ m ≤ 0x0FFFFFF0 := by
  rw [msgMaxLegal, Bool.and_eq_true, decide_eq_true_iff, decide_eq_true_iff]; rfl

/-! ### The address map, range by range -/

theorem locateNat_cmd (m n : Nat) (h : n = 0x0) : locateNat m n = .cmd := by
  subst h; rfl

theorem locateNat_status (m n : Nat) (h : n = 0x1) : locateNat m n = .status := by
  subst h; rfl

theorem locateNat_err (m n : Nat) (h : n = 0x2) : locateNat m n = .err := by
  subst h; rfl

theorem locateNat_keylen (m n : Nat) (h : n = 0x3) : locateNat m n = .keylen := by
  subst h; rfl

theorem locateNat_ilen (m n : Nat) (h : 0x4 ≤ n) (h' : n < 0x8) : locateNat m n = .ilen (n - 0x4) := by
  unfold locateNat ibufBase obufBase Config.outputExtra
  repeat rw [if_neg (by omega)]
  rw [if_pos (by omega)]

theorem locateNat_olen (m n : Nat) (h : 0x8 ≤ n) (h' : n < 0xC) : locateNat m n = .olen (n - 0x8) := by
  unfold locateNat ibufBase obufBase Config.outputExtra
  repeat rw [if_neg (by omega)]
  rw [if_pos (by omega)]

theorem locateNat_rounds (m n : Nat) (h : n = 0xC) : locateNat m n = .rounds := by
  subst h; rfl

theorem locateNat_reserved_low (m n : Nat) (h : 0xD ≤ n) (h' : n < 0x10) : locateNat m n = .reserved := by
  unfold locateNat ibufBase obufBase Config.outputExtra
  repeat rw [if_neg (by omega)]
  rw [if_pos (by omega)]

theorem locateNat_iv (m n : Nat) (h : 0x10 ≤ n) (h' : n < 0x20) : locateNat m n = .iv (n - 0x10) := by
  unfold locateNat ibufBase obufBase Config.outputExtra
  repeat rw [if_neg (by omega)]
  rw [if_pos (by omega)]

theorem locateNat_key (m n : Nat) (h : 0x20 ≤ n) (h' : n < 0x40) : locateNat m n = .key (n - 0x20) := by
  unfold locateNat ibufBase obufBase Config.outputExtra
  repeat rw [if_neg (by omega)]
  rw [if_pos (by omega)]

theorem locateNat_reserved_mid (m n : Nat) (h : 0x40 ≤ n) (h' : n < 0x100) : locateNat m n = .reserved := by
  unfold locateNat ibufBase obufBase Config.outputExtra
  repeat rw [if_neg (by omega)]
  rw [if_pos (by omega)]

theorem locateNat_rk (m n : Nat) (h : 0x100 ≤ n) (h' : n < 0x1F0) : locateNat m n = .rk (n - 0x100) := by
  unfold locateNat ibufBase obufBase Config.outputExtra
  repeat rw [if_neg (by omega)]
  rw [if_pos (by omega)]

theorem locateNat_reserved_high (m n : Nat) (h : 0x1F0 ≤ n) (h' : n < 0x10000000) : locateNat m n = .reserved := by
  unfold locateNat ibufBase obufBase Config.outputExtra
  repeat rw [if_neg (by omega)]
  rw [if_pos (by omega)]

theorem locateNat_ibuf (m n : Nat) (h : 0x10000000 ≤ n) (h' : n < 0x10000000 + m) : locateNat m n = .ibuf (n - 0x10000000) := by
  unfold locateNat ibufBase obufBase Config.outputExtra
  repeat rw [if_neg (by omega)]
  rw [if_pos (by omega)]

theorem locateNat_reserved_ibuf (m n : Nat) (h : 0x10000000 + m ≤ n) (h' : n < 0x20000000) : locateNat m n = .reserved := by
  unfold locateNat ibufBase obufBase Config.outputExtra
  repeat rw [if_neg (by omega)]
  rw [if_pos (by omega)]

theorem locateNat_obuf (m n : Nat) (hm : m ≤ 0x0FFFFFF0) (h : 0x20000000 ≤ n) (h' : n < 0x20000000 + m + 16) : locateNat m n = .obuf (n - 0x20000000) := by
  unfold locateNat ibufBase obufBase Config.outputExtra
  repeat rw [if_neg (by omega)]
  rw [if_pos (by omega)]

theorem locateNat_reserved_obuf (m n : Nat) (h : 0x20000000 + m + 16 ≤ n) : locateNat m n = .reserved := by
  unfold locateNat ibufBase obufBase Config.outputExtra
  repeat rw [if_neg (by omega)]

/-- The map says nothing else: an address that is not reserved lies in one of the ranges. -/
theorem locateNat_cases (m n : Nat) (h : locateNat m n ≠ .reserved) :
    n < 0xD ∨ (0x10 ≤ n ∧ n < 0x40) ∨ (0x100 ≤ n ∧ n < 0x1F0) ∨ (0x10000000 ≤ n ∧ n < 0x10000000 + m) ∨
      (0x20000000 ≤ n ∧ n < 0x20000000 + m + 16) := by
  by_contra hc
  have hr : (0xD ≤ n ∧ n < 0x10) ∨ (0x40 ≤ n ∧ n < 0x100) ∨ (0x1F0 ≤ n ∧ n < 0x10000000) ∨
      (0x10000000 + m ≤ n ∧ n < 0x20000000) ∨ 0x20000000 + m + 16 ≤ n := by omega
  rcases hr with ⟨h1, h2⟩ | ⟨h1, h2⟩ | ⟨h1, h2⟩ | ⟨h1, h2⟩ | h1
  · exact h (locateNat_reserved_low m n h1 h2)
  · exact h (locateNat_reserved_mid m n h1 h2)
  · exact h (locateNat_reserved_high m n h1 h2)
  · exact h (locateNat_reserved_ibuf m n h1 h2)
  · exact h (locateNat_reserved_obuf m n h1)

theorem locate_ofNat (m n : Nat) (h : n < 2 ^ 32) : locate m (BitVec.ofNat 32 n) = locateNat m n := by
  rw [locate, BitVec.toNat_ofNat, Nat.mod_eq_of_lt h]

/-- An address that names a byte of IBUF names one within its capacity. -/
theorem locate_ibuf_lt {m j : Nat} {a : Addr} (h : locate m a = .ibuf j) : j < m := by
  change locateNat m a.toNat = .ibuf j at h
  by_contra hc
  rcases locateNat_cases m a.toNat (by rw [h]; simp) with h1 | ⟨h1, h2⟩ | ⟨h1, h2⟩ | ⟨h1, h2⟩ | ⟨h1, h2⟩
  · have low : ∀ n, n < 0xD → ∀ j, locateNat m n ≠ .ibuf j := by
      intro n hn j; interval_cases n <;> simp [locateNat]
    exact low _ h1 j h
  · rcases Nat.lt_or_ge a.toNat 0x20 with h3 | h3
    · rw [locateNat_iv _ _ h1 h3] at h; cases h
    · rw [locateNat_key _ _ h3 h2] at h; cases h
  · rw [locateNat_rk _ _ h1 h2] at h; cases h
  · rw [locateNat_ibuf _ _ h1 h2] at h; injection h with h; omega
  · by_cases hz : a.toNat < 0x10000000 + m
    · rw [locateNat_ibuf _ _ (by omega) hz] at h; injection h with h; omega
    · unfold locateNat ibufBase obufBase Config.outputExtra at h
      repeat rw [if_neg (by omega)] at h
      rw [if_pos (by omega)] at h; cases h

/-! ### A step at the port -/

theorem step_write_cmd {s : State} {op : Byte} {rest : List HostOp} (h : msgMaxLegal s.msgMax = true)
    (hp : s.pending = .write 0x00000000#32 op :: rest) :
    step s = runCommand op { s with pending := rest, trace := .write 0x00000000#32 op :: s.trace } := by
  simp only [step, h, if_true, hostStep, hp, perform, hostWrite]
  rfl

theorem step_write {s : State} {a : Addr} {v : Byte} {rest : List HostOp} (h : msgMaxLegal s.msgMax = true)
    (hp : s.pending = .write a v :: rest) (ha : locate s.msgMax a ≠ .cmd) :
    step s = .next (memWrite { s with pending := rest, trace := .write a v :: s.trace } a v) := by
  simp only [step, h, if_true, hostStep, hp, perform, hostWrite]
  show (match locate s.msgMax a with | .cmd => _ | _ => _) = _
  split
  · contradiction
  · rfl

theorem step_read {s : State} {a : Addr} {rest : List HostOp} (h : msgMaxLegal s.msgMax = true) (hp : s.pending = .read a :: rest) :
    step s = .next { s with pending := rest, trace := .read a (memRead s a) :: s.trace } := by
  simp only [step, h, if_true, hostStep, hp, perform]
  rfl

theorem step_move {s : State} {src dst : Addr} {rest : List HostOp} (h : msgMaxLegal s.msgMax = true)
    (hp : s.pending = .move src dst :: rest) :
    step s = .next { s with pending := .write dst (memRead s src) :: rest, trace := .read src (memRead s src) :: s.trace } := by
  simp only [step, h, if_true, hostStep, hp, perform]
  rfl

theorem step_reset {s : State} {rest : List HostOp} (h : msgMaxLegal s.msgMax = true) (hp : s.pending = .reset :: rest) :
    step s = .next { State.reset with msgMax := s.msgMax, pending := rest, trace := s.trace } := by
  simp only [step, h, if_true, hostStep, hp, perform]
  rfl

theorem step_idle {s : State} (h : msgMaxLegal s.msgMax = true) (hp : s.pending = []) : step s = .next s := by
  simp only [step, h, if_true, hostStep, hp]

/-- What a step can do, said once: nothing, a host access, a command, an illegal opcode, or the reset event, on a state whose host side has moved on. -/
theorem step_cases {s : State} (h : msgMaxLegal s.msgMax = true) :
    step s = .next s ∨ ∃ p tr, ∃ u : State, u = { s with pending := p, trace := tr } ∧
      (step s = .next u ∨ (∃ a v, step s = .next (memWrite u a v)) ∨ (∃ i, step s = exec i u) ∨
        step s = .next (u.fail .illegalCommand) ∨ step s = .next u.resetEvent) := by
  cases hp : s.pending with
  | nil => exact .inl (step_idle h hp)
  | cons op rest =>
    refine .inr ?_
    cases op with
    | read a => exact ⟨_, _, _, rfl, .inl (step_read h hp)⟩
    | move a b => exact ⟨_, _, _, rfl, .inl (step_move h hp)⟩
    | reset => exact ⟨rest, s.trace, _, rfl, .inr (.inr (.inr (.inr (step_reset h hp))))⟩
    | write a v =>
      refine ⟨rest, .write a v :: s.trace, _, rfl, ?_⟩
      have hs : step s = hostWrite a v { s with pending := rest, trace := .write a v :: s.trace } := by
        simp only [step, h, if_true, hostStep, hp, perform]
        rfl
      rw [hs, hostWrite]
      split
      · rw [runCommand]
        split
        · exact .inr (.inr (.inl ⟨_, rfl⟩))
        · exact .inr (.inr (.inr (.inl rfl)))
      · exact .inr (.inl ⟨a, v, rfl⟩)

/-- Everything a host write leaves alone. -/
theorem memWrite_frame (s : State) (a : Addr) (v : Byte) :
    SameResults s (memWrite s a v) ∧ (memWrite s a v).pending = s.pending ∧ (memWrite s a v).trace = s.trace := by
  unfold memWrite
  generalize locate s.msgMax a = l
  cases l <;> exact ⟨⟨rfl, rfl, rfl, rfl, rfl, rfl, rfl⟩, rfl, rfl⟩

/-! ### The indexes in range -/

@[simp] theorem Location.inRange_ilen (m k : Nat) : (Location.ilen k).inRange m = true ↔ k < 4 := decide_eq_true_iff
@[simp] theorem Location.inRange_olen (m k : Nat) : (Location.olen k).inRange m = true ↔ k < 4 := decide_eq_true_iff
@[simp] theorem Location.inRange_iv (m j : Nat) : (Location.iv j).inRange m = true ↔ j < 16 := decide_eq_true_iff
@[simp] theorem Location.inRange_key (m j : Nat) : (Location.key j).inRange m = true ↔ j < 32 := decide_eq_true_iff
@[simp] theorem Location.inRange_rk (m j : Nat) : (Location.rk j).inRange m = true ↔ j < 240 := decide_eq_true_iff
@[simp] theorem Location.inRange_ibuf (m j : Nat) : (Location.ibuf j).inRange m = true ↔ j < m := decide_eq_true_iff
@[simp] theorem Location.inRange_obuf (m j : Nat) : (Location.obuf j).inRange m = true ↔ j < m + 16 := decide_eq_true_iff
@[simp] theorem Location.inRange_reserved (m : Nat) : Location.reserved.inRange m = false := rfl

/-- Read after write, location by location. -/
theorem State.peek_poke {s : State} (hw : s.ibuf.wf s.msgMax = true) (v : Byte) {l l' : Location} (hl : l.inRange s.msgMax = true)
    (hl' : l'.inRange s.msgMax = true) (ha : l.access = .readWrite) : (s.poke v l).peek l' = if l' = l then v else s.peek l' := by
  cases l <;> simp [Location.access] at ha <;> cases l' <;> (try simp at hl hl') <;>
    simp [State.poke, State.peek, fileRead_fileWrite, lenByte_setLenByte, hl, hl', Memory.read_write hw]

end Sys2Proof.Machine
end

