-- ==== Sys2Proof/Tests/Slice0.lean ====
section
/-! SUPPORT. The model's own tests. Every expected value is printed in spec/95_test_vectors.md (V and P numbers) or in the rule named; none is the model's own answer.
After the tests, the witnesses: for each statement with hypotheses, concrete values that meet them all. -/

namespace Sys2Proof.Tests

open Sys2Proof.Machine

set_option Elab.async false

/-! ### Helpers -/

/-- The byte sequence that `n` bytes of hex digits denote (R7). -/
def hex (n v : Nat) : List Byte := (List.range n).map (fun i => BitVec.ofNat 8 (v >>> (8 * (n - 1 - i))))

def k128 : List Byte := hex 16 0x000102030405060708090a0b0c0d0e0f
def k192 : List Byte := hex 24 0x000102030405060708090a0b0c0d0e0f1011121314151617
def k256 : List Byte := hex 32 0x000102030405060708090a0b0c0d0e0f101112131415161718191a1b1c1d1e1f
def plain : List Byte := hex 16 0x00112233445566778899aabbccddeeff
def cipher : List Byte := hex 16 0x69c4e0d86a7b0430d8cdb78070b4c55a

/-- The reset state after a key, an IV and an input are loaded. -/
def loaded (key iv input : List Byte) : State :=
  { State.reset with
    key := fileOf 32 key, keylen := BitVec.ofNat 8 key.length, iv := fileOf 16 iv,
    ilen := BitVec.ofNat 32 input.length, ibuf := Memory.ofBytes 0 input }

/-- The state in which RK holds the schedule of a key. -/
def scheduled (key : List Byte) (s : State) : State :=
  { s with rk := fileOf 240 (bytesOf (expandKey key)), rounds := BitVec.ofNat 8 (roundsOf key.length), status := 0x01#8 }

/-- `p` holds of the next state. -/
def next (o : Host.Outcome State Fault Refusal) (p : State → Bool) : Bool :=
  match o with
  | .next t => p t
  | .fault _ => false
  | .refused _ => false

/-- The result registers after a failure. -/
def failed (code : Byte) (t : State) : Bool := t.err == code && t.errf && t.olen == 0#32 && t.obuf == []

/-! ### What is well formed (WellFormed.lean, Script.lean) -/

theorem test_msg_max_too_small_is_refused : msgMaxLegal 15 = false := by decide
theorem test_msg_max_too_great_is_refused : msgMaxLegal 0x0FFFFFF1 = false := by decide
theorem test_msg_max_bounds_are_legal : msgMaxLegal 16 = true ∧ msgMaxLegal 0x0FFFFFF0 = true := by decide
theorem test_every_command_is_well_formed :
    [Instr.expandkey, .encblk, .decblk, .encmsg, .decmsg].all Instr.wf = true := by decide
theorem test_long_key_line_is_refused : (ScriptLine.ldkey (hex 33 0)).wf 4096 = false := by decide
theorem test_short_iv_line_is_refused : (ScriptLine.ldiv (hex 15 0)).wf 4096 = false := by decide
theorem test_long_input_line_is_refused : (ScriptLine.ldin (hex 17 0)).wf 16 = false := by decide
theorem test_wide_length_line_is_refused : (ScriptLine.setilen 0x100000000).wf 4096 = false := by decide
theorem test_round_key_line_is_refused : (ScriptLine.rdrk 15).wf 4096 = false := by decide
theorem test_long_output_lines_are_refused : (ScriptLine.rdout 33).wf 16 = false ∧ (ScriptLine.movoi 33).wf 16 = false := by decide

/-- R86 takes the names of R51 alone: the next index of a file, and a reserved address, have none. -/
theorem test_unknown_names_are_refused :
    [Location.ilen 4, .olen 4, .iv 16, .key 32, .rk 240, .ibuf 4096, .obuf 4112, .reserved].all
      (fun l => !(ScriptLine.wr (.name l) 0x55#8).wf 4096 && !(ScriptLine.rd (.name l)).wf 4096) = true := by decide
/-- V60: every line of a hex address is legal, a reserved address too; so are the last names of the files. -/
theorem test_hex_addresses_and_last_names_are_legal :
    [ScriptAddr.hex 0x0D#32, .hex 0x40#32, .hex 0x10001000#32, .hex 0x30000000#32, .hex 0x1F0#32, .name (.ibuf 4095), .name (.key 31), .name (.iv 15)].all
      (fun a => (ScriptLine.wr a 0x55#8).wf 4096 && (ScriptLine.rd a).wf 4096) = true := by decide

/-! ### Decoding: the opcodes of R81, bit by bit; illegal opcodes of R83 -/

theorem test_decode_expandkey : decode 0b00000001#8 = .ok .expandkey := by decide
theorem test_decode_encblk : decode 0b00000010#8 = .ok .encblk := by decide
theorem test_decode_decblk : decode 0b00000011#8 = .ok .decblk := by decide
theorem test_decode_encmsg : decode 0b00000100#8 = .ok .encmsg := by decide
theorem test_decode_decmsg : decode 0b00000101#8 = .ok .decmsg := by decide
theorem test_decode_illegal :
    decode 0x00#8 = .error (.illegalCommand 0x00#8) ∧ decode 0x06#8 = .error (.illegalCommand 0x06#8) ∧
    decode 0x81#8 = .error (.illegalCommand 0x81#8) ∧ decode 0xFF#8 = .error (.illegalCommand 0xFF#8) := by decide
theorem test_decode_table_word : decodeTableWord 8 0x05 = some .decmsg ∧ decodeTableWord 8 0x06 = none := by decide

/-! ### The primitives (V22, V50 to V52, V54) -/

/-- V50. -/
theorem test_gf_multiply :
    gfMultiply 0x57#8 0x13#8 = 0xFE#8 ∧ gfMultiply 0xFF#8 0xFF#8 = 0x13#8 ∧ gfMultiply 0x0E#8 0x02#8 = 0x1C#8 ∧
    gfMultiply 0x09#8 0x03#8 = 0x1B#8 := by decide +kernel
/-- V52. -/
theorem test_gf_inverse : gfInverse 0x80#8 = 0x83#8 ∧ gfInverse 0x1B#8 = 0xCC#8 ∧ gfInverse 0xFF#8 = 0x1C#8 := by decide +kernel
/-- V54. -/
theorem test_sbox : sbox 0x00#8 = 0x63#8 ∧ sbox 0x01#8 = 0x7C#8 ∧ sbox 0x10#8 = 0xCA#8 ∧ sbox 0xFF#8 = 0x16#8 := by decide +kernel
/-- V22. -/
theorem test_shift_rows :
    (shiftRows (Block.ofBytes k128)).toBytes = hex 16 0x00050a0f04090e03080d02070c01060b ∧
    (invShiftRows (Block.ofBytes k128)).toBytes = hex 16 0x000d0a0704010e0b0805020f0c090603 := by decide +kernel
/-- V20, round 1, and V22: the last column is InvMixColumns of a MixColumns example. -/
theorem test_mix_columns :
    (mixColumns (Block.ofBytes (hex 16 0x6353e08c0960e104cd70b751bacad0e7))).toBytes = hex 16 0x5f72641557f5bc92f7be3b291db9f91a ∧
    matrixM.apply (Word.ofBytes (hex 4 0xd4bf5d30)) = Word.ofBytes (hex 4 0x046681e5) ∧
    matrixMinv.apply (Word.ofBytes (hex 4 0x8e4da1bc)) = Word.ofBytes (hex 4 0xdb135345) := by decide +kernel
/-- V12: the last round key of the 256-bit key. -/
theorem test_expand_key_256 : (roundKey (expandKey k256) 14).toBytes = hex 16 0x24fc79ccbf0979e9371ac23c6d68de36 := by decide +kernel
/-- V30. -/
theorem test_pad : pad (hex 5 0x68656c6c6f) = hex 16 0x68656c6c6f0b0b0b0b0b0b0b0b0b0b0b := by decide +kernel
/-- V31. -/
theorem test_unpad :
    unpad (hex 16 0x0f0f0f0f0f0f0f0f0f0f0f0f0f0f0f0f) = .ok [0x0F#8] ∧ unpad (List.replicate 16 0x10#8) = .ok [] ∧
    unpad (hex 16 0x11101010101010101010101010101010) = .error .invalidPadding ∧
    unpad (hex 16 0x02020202020202020202020202020102) = .error .invalidPadding := by decide +kernel

/-! ### The commands, one step each -/

/-- V11: the 192-bit schedule in RK, with a key register beyond KEYLEN set. -/
theorem test_expandkey :
    next (exec .expandkey { loaded (k192 ++ hex 8 0xffffffffffffffff) [] [] with keylen := 24#8 }) (fun t =>
      t.rk.toList.drop 192 == hex 16 0xa4970a331a78dc09c418c271e3a41d5d ++ hex 32 0 && t.rounds == 12#8 && t.status == 0x01#8 && t.err == 0x00#8 &&
      t.olen == 0#32) = true := by decide +kernel
/-- V17, KEYLEN = 20: the old schedule is erased. -/
theorem test_expandkey_bad_length :
    next (exec .expandkey { scheduled k128 State.reset with keylen := 20#8 }) (fun t =>
      failed 0x01#8 t && t.status == 0x02#8 && t.rounds == 0#8 && t.rk.toList.all (· == 0x00#8)) = true := by decide +kernel
/-- V25, row 5: IBUF[16] is ignored. -/
theorem test_encblk :
    next (exec .encblk { scheduled k128 (loaded [] [] (plain ++ [0xAA#8])) with ilen := 16#32 }) (fun t =>
      t.obuf.readBytes 0 17 == cipher ++ [0x00#8] && t.olen == 16#32 && t.err == 0x00#8 && t.status == 0x01#8) = true := by decide +kernel
/-- V25, row 4: all four length bytes count. -/
theorem test_encblk_bad_length :
    next (exec .encblk { scheduled k128 State.reset with ilen := 0x00000110#32 }) (fun t => failed 0x02#8 t && t.status == 0x03#8) = true := by
  decide +kernel
/-- V23: decryptBlock of sixteen 0x00 under the all-zero key. -/
theorem test_decblk :
    next (exec .decblk (scheduled (hex 16 0) (loaded [] [] (hex 16 0)))) (fun t =>
      t.obuf.readBytes 0 16 == hex 16 0x140f0f1011b5223d79587717ffd9ec3a && t.err == 0x00#8) = true := by decide +kernel
/-- V25, row 2: no schedule. -/
theorem test_decblk_no_schedule :
    next (exec .decblk { State.reset with ilen := 16#32 }) (fun t => failed 0x81#8 t && t.status == 0x02#8) = true := by decide +kernel
/-- V32. -/
theorem test_encmsg :
    next (exec .encmsg (loaded k128 k128 (hex 5 0x68656c6c6f))) (fun t =>
      t.obuf.readBytes 0 16 == hex 16 0x1dfe836df70e89310a970a31fa3351fd && t.olen == 16#32 && t.status == 0x01#8 && t.rounds == 10#8) = true := by
  decide +kernel
/-- V34: 17 bytes, two blocks. -/
theorem test_encmsg_two_blocks :
    next (exec .encmsg (loaded k128 [] (plain ++ [0x01#8]))) (fun t =>
      t.obuf.readBytes 0 32 == cipher ++ hex 16 0xfed7305f6caedb6160c80784d0893c07 && t.olen == 32#32) = true := by decide +kernel
/-- V42, row 4. -/
theorem test_decmsg :
    next (exec .decmsg (loaded k128 k128 (hex 16 0xa501c3e128628111bce72635e4c0c8e9))) (fun t =>
      t.obuf.readBytes 0 14 == hex 14 0x00112233445566778899aabbcc00 && t.olen == 13#32 && t.err == 0x00#8) = true := by decide +kernel
/-- V40, row 2: the tampered ciphertext; the schedule stays. -/
theorem test_decmsg_tampered :
    next (exec .decmsg (loaded k128 k128 (hex 16 0x1dfe836df70e89310a970a31fa335102))) (fun t =>
      failed 0x04#8 t && t.status == 0x03#8 && t.rounds == 10#8) = true := by decide +kernel
/-- V43: MessageTooLong comes before InvalidKeyLength, InvalidKeyLength before InvalidCiphertextLength. -/
theorem test_error_priority :
    next (exec .encmsg { State.reset with ilen := 4097#32 }) (fun t => failed 0x82#8 t && t.status == 0x02#8) = true ∧
    next (exec .decmsg { State.reset with keylen := 20#8, ilen := 17#32 }) (fun t => failed 0x01#8 t) = true := by decide +kernel
/-- V43: an illegal opcode keeps the schedule. -/
theorem test_illegal_opcode :
    next (step { scheduled k128 State.reset with pending := [.write 0x00#32 0x06#8] }) (fun t =>
      failed 0x83#8 t && t.status == 0x03#8 && t.rounds == 10#8) = true := by decide +kernel

/-! ### The host port (V60, P5) -/

/-- V60: writes of STATUS, RK[0], OBUF[0] and reserved addresses are ignored. -/
theorem test_ignored_writes :
    [0x01#32, 0x02#32, 0x08#32, 0x0C#32, 0x100#32, 0x20000000#32, 0x0D#32, 0x40#32, 0x10001000#32, 0x30000000#32].all
      (fun a => memRead (memWrite State.reset a 0xFF#8) a == 0x00#8 && (memWrite State.reset a 0xFF#8).err == 0x00#8) = true := by decide +kernel
/-- V60: the last element of each RW array. -/
theorem test_last_elements :
    memRead (memWrite State.reset 0x10000FFF#32 0x5A#8) 0x10000FFF#32 = 0x5A#8 ∧
    memRead (memWrite State.reset 0x3F#32 0xA5#8) 0x3F#32 = 0xA5#8 ∧
    memRead (memWrite State.reset 0x1F#32 0x3C#8) 0x1F#32 = 0x3C#8 := by decide +kernel
/-- V60: SETILEN 0x01020304 reads back least significant byte first. -/
theorem test_ilen_bytes :
    (List.range 4).map (fun k => memRead { State.reset with ilen := 0x01020304#32 } (BitVec.ofNat 32 (4 + k))) =
      [0x04#8, 0x03#8, 0x02#8, 0x01#8] := by decide +kernel
/-- P5: the encoding of `LDIN 68656c6c6f`. -/
theorem test_ldin_expansion :
    (ScriptLine.ldin (hex 5 0x68656c6c6f)).expand =
      [.write 0x10000000#32 0x68#8, .write 0x10000001#32 0x65#8, .write 0x10000002#32 0x6c#8, .write 0x10000003#32 0x6c#8,
       .write 0x10000004#32 0x6f#8, .write 0x04#32 0x05#8, .write 0x05#32 0x00#8, .write 0x06#32 0x00#8, .write 0x07#32 0x00#8] := by
  decide +kernel
/-- P5: the encoding of SETILEN 4097; R87: RDRK 1 begins at RK[16]. -/
theorem test_setilen_and_rdrk_expansion :
    (ScriptLine.setilen 4097).expand =
      [.write 0x04#32 0x01#8, .write 0x05#32 0x10#8, .write 0x06#32 0x00#8, .write 0x07#32 0x00#8] ∧
    (ScriptLine.rdrk 1).expand.take 2 = [.read 0x110#32, .read 0x111#32] := by decide +kernel
/-- V60, its lines by hex address and by name: `WR 0x00000040, 0x55`, `RD 0x20001010`, `WR KEY[31], 0xA5`. -/
theorem test_addr_expansion :
    (ScriptLine.wr (.hex 0x40#32) 0x55#8).expand = [.write 0x40#32 0x55#8] ∧ (ScriptLine.rd (.hex 0x20001010#32)).expand = [.read 0x20001010#32] ∧
    (ScriptLine.wr (.name (.key 31)) 0xA5#8).expand = [.write 0x3F#32 0xA5#8] := by decide +kernel
/-- P5, first lines of its encoding. -/
theorem test_written_form :
    (PortEvent.write 0x10000002#32 0x6C#8).written = "W 10000002 6c" ∧ (PortEvent.read 0x20000008#32 0x0A#8).written = "R 20000008" := by
  decide +kernel
/-- P5, MOVOI: `R 20000000=1d W 10000000 1d`, two transactions. -/
theorem test_move :
    next (step { State.reset with obuf := [(0, 0x1D#8)], pending := [.move 0x20000000#32 0x10000000#32] }) (fun t =>
      t.pending == [.write 0x10000000#32 0x1D#8] && t.trace == [.read 0x20000000#32 0x1D#8]) = true := by decide +kernel
/-- R250: the reset event. -/
theorem test_reset_event :
    next (step { scheduled k128 (loaded k128 k128 plain) with pending := [.reset] }) (fun t =>
      t.key.toList.all (· == 0x00#8) && t.keylen == 0x00#8 && t.iv.toList.all (· == 0x00#8) && t.ilen == 0#32 && t.ibuf == [] && t.rk.toList.all (· == 0x00#8) &&
      t.rounds == 0x00#8 && t.status == 0x00#8 && t.pending == []) = true := by decide +kernel
/-- The word of ENCBLK, placed after reset, runs as the first step: P3's first line (STATUS 02, ERR 02). -/
theorem test_placed_word_runs :
    next (step (State.reset.withFetchWord 8 0x02)) (fun t => failed 0x02#8 t && t.status == 0x02#8 && t.pending == []) = true := by decide +kernel

/-! ### Witnesses: values that meet the hypotheses of a statement, all together -/

/-- A state for the port's statements: ENCBLK's operands loaded, a result in OBUF, one transaction to come. -/
def atPort (op : HostOp) : State :=
  { scheduled k128 (loaded k128 k128 plain) with obuf := [(0, 0x01#8)], olen := 1#32, pending := [op] }

theorem witness_IllegalOpcodeRaisesIllegalCommand :
    ((0x00#8).toNat = 0 ∨ 6 ≤ (0x00#8).toNat) ∧ ((0x06#8).toNat = 0 ∨ 6 ≤ (0x06#8).toNat) ∧ ((0xFF#8).toNat = 0 ∨ 6 ≤ (0xFF#8).toNat) := by decide

theorem witness_StepRunsTheDecodedCommand :
    msgMaxLegal (atPort (.write 0x00000000#32 0x02#8)).msgMax = true ∧
    (atPort (.write 0x00000000#32 0x02#8)).pending = .write 0x00000000#32 0x02#8 :: [] ∧ decode 0x02#8 = .ok .encblk := by decide +kernel

theorem witness_PlacedCommandRunsNext : msgMaxLegal State.reset.msgMax = true := by decide

theorem witness_IdleCoreKeepsItsState : msgMaxLegal State.reset.msgMax = true ∧ State.reset.pending = [] := by decide

theorem witness_IllegalMsgMaxIsRefused :
    ({ State.reset with msgMax := 15 } : State).msgMax < 16 ∧ 0x0FFFFFF0 < ({ State.reset with msgMax := 0x0FFFFFF1 } : State).msgMax := by decide

/-- Both ends of every range of the map (R51), with MSG_MAX = 4096, each with the location the map names. -/
theorem witness_AddressMapIsTheSpecs :
    [0x0, 0x1, 0x2, 0x3, 0x4, 0x7, 0x8, 0xB, 0xC, 0xD, 0xF, 0x10, 0x1F, 0x20, 0x3F, 0x40, 0xFF, 0x100, 0x1EF, 0x1F0, 0x0FFFFFFF, 0x10000000,
      0x10000FFF, 0x10001000, 0x1FFFFFFF, 0x20000000, 0x2000100F, 0x20001010, 0xFFFFFFFF].map (locate 4096) =
    [.cmd, .status, .err, .keylen, .ilen 0, .ilen 3, .olen 0, .olen 3, .rounds, .reserved, .reserved, .iv 0, .iv 15, .key 0, .key 31, .reserved, .reserved,
      .rk 0, .rk 239, .reserved, .reserved, .ibuf 0, .ibuf 4095, .reserved, .reserved, .obuf 0, .obuf 4111, .reserved, .reserved] ∧
    msgMaxLegal 4096 = true := by decide +kernel

/-- The map at the least and the greatest MSG_MAX. -/
theorem witness_AddressMapIsTheSpecs_bounds :
    locate 16 0x1000000F#32 = .ibuf 15 ∧ locate 16 0x10000010#32 = .reserved ∧ locate 16 0x2000001F#32 = .obuf 31 ∧
    locate 16 0x20000020#32 = .reserved ∧ locate 0x0FFFFFF0 0x1FFFFFEF#32 = .ibuf 0x0FFFFFEF ∧ locate 0x0FFFFFF0 0x1FFFFFF0#32 = .reserved ∧
    locate 0x0FFFFFF0 0x2FFFFFFF#32 = .obuf 0x0FFFFFFF ∧ locate 0x0FFFFFF0 0x30000000#32 = .reserved := by decide +kernel

theorem witness_LocationAddressesRoundTrip :
    msgMaxLegal 4096 = true ∧ (Location.ilen 3).inRange 4096 = true ∧ (Location.olen 3).inRange 4096 = true ∧ (Location.iv 15).inRange 4096 = true ∧
    (Location.key 31).inRange 4096 = true ∧ (Location.rk 239).inRange 4096 = true ∧ (Location.ibuf 4095).inRange 4096 = true ∧ (Location.obuf 4111).inRange 4096 = true ∧
    locate 4096 0x2000100F#32 ≠ .reserved := by decide +kernel

theorem witness_HostReadGivesTheRegister :
    (atPort (.read 0x01#32)).pending = .read 0x01#32 :: [] ∧ (locate 4096 0x01#32).access = .readOnly ∧ (locate 4096 0x03#32).access = .readWrite ∧
    locate 4096 0x0D#32 = .reserved ∧ msgMaxLegal (atPort (.read 0x01#32)).msgMax = true := by decide +kernel

theorem witness_HostReadsEachRegisterAtItsAddress :
    msgMaxLegal State.reset.msgMax = true ∧ 3 < 4 ∧ 4095 < State.reset.msgMax ∧ 4111 < State.reset.msgMax + 16 := by decide

theorem witness_HostWriteStoresOneRegister :
    (atPort (.write 0x10000FFF#32 0x5A#8)).ibuf.wf (atPort (.write 0x10000FFF#32 0x5A#8)).msgMax = true ∧
    (atPort (.write 0x10000FFF#32 0x5A#8)).pending = .write 0x10000FFF#32 0x5A#8 :: [] ∧
    [0x03#32, 0x04#32, 0x07#32, 0x10#32, 0x1F#32, 0x20#32, 0x3F#32, 0x10000000#32, 0x10000FFF#32].all
      (fun a => (locate 4096 a).access == .readWrite) = true := by decide +kernel

theorem witness_ReservedAndReadOnlyWritesAreIgnored :
    (atPort (.write 0x0F#32 0x55#8)).pending = .write 0x0F#32 0x55#8 :: [] ∧ locate 4096 0x0F#32 = .reserved ∧
    (atPort (.write 0x1EF#32 0x55#8)).pending = .write 0x1EF#32 0x55#8 :: [] ∧ (locate 4096 0x1EF#32).access = .readOnly ∧
    (atPort (.read 0x0F#32)).pending = .read 0x0F#32 :: [] := by decide +kernel

theorem witness_LdkeyLoadsTheKey : msgMaxLegal State.reset.msgMax = true ∧ k128.length ≤ 32 ∧ k256.length ≤ 32 := by decide +kernel

theorem witness_MovoiCopiesTheResultToTheInput :
    msgMaxLegal (atPort .reset).msgMax = true ∧ (atPort .reset).ibuf.wf (atPort .reset).msgMax = true ∧ 16 ≤ (atPort .reset).msgMax + 16 ∧
    4112 ≤ (atPort .reset).msgMax + 16 := by decide +kernel

theorem witness_ResetEventClearsTheMachine :
    msgMaxLegal (atPort .reset).msgMax = true ∧ (atPort .reset).pending = .reset :: [] := by decide +kernel

theorem witness_InverseIsTheUniqueInverse : (0x53#8 : Byte) ≠ 0x00#8 ∧ gfMultiply 0x53#8 0xCA#8 = 0x01#8 := by decide +kernel

/-- V43's row 4: RK holds a schedule, KEYLEN = 20. -/
def keyTwenty (ilen : Len) : State := { scheduled k128 (loaded k128 k128 plain) with keylen := 20#8, ilen := ilen }

theorem witness_ScheduleHasRoundsPlusOneKeys :
    k128.length = 16 ∧ k192.length = 24 ∧ k256.length = 32 ∧
    (keyTwenty 17#32).keylen ≠ 16#8 ∧ (keyTwenty 17#32).keylen ≠ 24#8 ∧ (keyTwenty 17#32).keylen ≠ 32#8 ∧
    (keyTwenty 17#32).ilen.toNat ≤ (keyTwenty 17#32).msgMax ∧ (keyTwenty 4096#32).ilen.toNat ≤ (keyTwenty 4096#32).msgMax := by decide +kernel

/-- The words of the 256-bit example (V12) meet the hypotheses; word 8 is the first the recurrence gives, word 12 the one with the extra substitution. -/
theorem witness_ExpansionFollowsTheRecurrence :
    k256.length = 32 ∧ (roundKey (expandKey k256) (8 / 4)).col (8 % 4) = Word.ofBytes (hex 4 0xa573c29f) ∧
    (roundKey (expandKey k256) (12 / 4)).col (12 % 4) = Word.ofBytes (hex 4 0x1651a8cd) := by decide +kernel

theorem witness_ExpandkeyLoadsTheSchedule :
    (loaded k128 [] []).keylen = 16#8 ∧ (loaded k192 [] []).keylen = 24#8 ∧ (loaded k256 [] []).keylen = 32#8 := by decide +kernel

theorem witness_EncryptBlockIsTheRoundLoop :
    (expandKey k128).length = 10 + 1 ∧ (expandKey k192).length = 12 + 1 ∧ (expandKey k256).length = 14 + 1 := by decide +kernel

theorem witness_DecryptBlockIsTheReversedLoop :
    (expandKey k128).length = 10 + 1 ∧ (expandKey k192).length = 12 + 1 ∧ (expandKey k256).length = 14 + 1 := by decide +kernel

/-- The state of V25's row 5, for the statements about ENCBLK and DECBLK. -/
def blockReady : State := scheduled k128 (loaded k128 [] plain)

theorem witness_EncblkEncryptsTheInputBlock : blockReady.ilen = 16#32 ∧ blockReady.kvalid = true := by decide +kernel

theorem witness_DecblkDecryptsTheInputBlock : blockReady.ilen = 16#32 ∧ blockReady.kvalid = true := by decide +kernel

theorem witness_DecblkUndoesEncblkInRegisters : blockReady.ilen = 16#32 ∧ blockReady.kvalid = true := by decide +kernel

/-- Two states that differ in KEY, KEYLEN, IV and OBUF. -/
theorem witness_BlockCommandsReadOnlyTheirOperands :
    let other : State := { blockReady with key := Vector.replicate 32 0xFF#8, keylen := 0#8, iv := Vector.replicate 16 0x01#8, obuf := [(3, 0x07#8)] }
    blockReady.keylen ≠ other.keylen ∧ blockReady.ilen = other.ilen ∧ (∀ j, j < 16 → blockReady.ibuf.read j = other.ibuf.read j) ∧
    blockReady.status = other.status ∧ blockReady.rounds = other.rounds ∧ blockReady.rk = other.rk :=
  ⟨by decide +kernel, rfl, fun _ _ => rfl, rfl, rfl, rfl⟩

/-- The state of V32. -/
def hello : State := loaded k128 k128 (hex 5 0x68656c6c6f)

/-- Two states that differ in KEY from KEYLEN up, in IBUF from ILEN up, in STATUS and in the schedule. -/
theorem witness_KeyAndMessageCommandsReadOnlyTheirOperands :
    let other : State := { scheduled k256 hello with key := fileOf 32 (k128 ++ [0xFF#8]), ibuf := Memory.ofBytes 0 (hex 6 0x68656c6c6fff) }
    fileRead hello.key 16 ≠ fileRead other.key 16 ∧ hello.ibuf.read 5 ≠ other.ibuf.read 5 ∧ hello.rounds ≠ other.rounds ∧ hello.kvalid ≠ other.kvalid ∧
    hello.keylen = other.keylen ∧ (∀ j, j < hello.keylen.toNat → fileRead hello.key j = fileRead other.key j) ∧ hello.msgMax = other.msgMax ∧
    hello.iv = other.iv ∧ hello.ilen = other.ilen ∧ (∀ j, j < hello.ilen.toNat → hello.ibuf.read j = other.ibuf.read j) ∧
    (hello.msgMax < hello.ilen.toNat → hello.rk = other.rk ∧ hello.rounds = other.rounds ∧ hello.kvalid = other.kvalid) :=
  ⟨by decide +kernel, by decide +kernel, by decide +kernel, by decide +kernel, rfl, by decide +kernel, rfl, rfl, rfl, by decide +kernel,
    fun h => absurd h (by decide)⟩

/-- With ILEN = MSG_MAX + 1, two states of one schedule that differ in KEY from KEYLEN up and in OBUF. -/
theorem witness_KeyAndMessageCommandsReadOnlyTheirOperands_too_long :
    let long : State := { keyTwenty 4097#32 with keylen := 16#8 }
    let other : State := { long with key := fileOf 32 (k128 ++ [0xFF#8]), obuf := [(3, 0x07#8)] }
    fileRead long.key 16 ≠ fileRead other.key 16 ∧ long.keylen = other.keylen ∧ long.msgMax < long.ilen.toNat ∧
    (∀ j, j < long.keylen.toNat → fileRead long.key j = fileRead other.key j) ∧ long.msgMax = other.msgMax ∧ long.iv = other.iv ∧
    long.ilen = other.ilen ∧ (∀ j, j < long.ilen.toNat → long.ibuf.read j = other.ibuf.read j) ∧ long.rk = other.rk ∧
    long.rounds = other.rounds ∧ long.kvalid = other.kvalid :=
  ⟨by decide +kernel, rfl, by decide +kernel, by decide +kernel, rfl, rfl, rfl, fun _ _ => rfl, rfl, rfl, rfl⟩

/-- V30's 5-byte message: its padding stands at indexes 5 to 15; V30's 16-byte one is a whole number of blocks. -/
theorem witness_PaddingAddsItsOwnLength :
    (hex 5 0x68656c6c6f).length ≤ 5 ∧ 15 < (hex 5 0x68656c6c6f).length + 11 ∧ plain.length % 16 = 0 := by decide +kernel

/-- V31: a block that unpads, and one that does not. -/
theorem witness_UnpadAcceptsExactlyValidPadding :
    0 < (hex 16 0x00112233445566778899aabbcc030303).length ∧ (hex 16 0x00112233445566778899aabbcc030303).length % 16 = 0 ∧
    unpad (hex 16 0x00112233445566778899aabbcc030303) = .ok (hex 13 0x00112233445566778899aabbcc) ∧
    unpad (hex 16 0x00112233445566778899aabbccddee00) = .error .invalidPadding := by decide +kernel

theorem witness_CbcEncryptionChainsTheBlocks :
    keyLengthValid (hex 20 0).length = false ∧ keyLengthValid k128.length = true ∧ 16 * (0 + 1) < (pad plain).length := by decide +kernel

theorem witness_CbcDecryptionChainsTheBlocks :
    keyLengthValid (hex 20 0).length = false ∧ keyLengthValid k128.length = true ∧
    ((hex 17 0).length = 0 ∨ (hex 17 0).length % 16 ≠ 0) ∧ (hex 32 0).length ≠ 0 ∧ (hex 32 0).length % 16 = 0 ∧
    16 * (0 + 1) < (hex 32 0).length := by decide +kernel

theorem witness_MessageRoundTrip :
    keyLengthValid k128.length = true ∧ keyLengthValid k192.length = true ∧ keyLengthValid k256.length = true := by decide +kernel

theorem witness_EncmsgEncryptsTheMessage :
    msgMaxLegal hello.msgMax = true ∧ hello.ilen.toNat ≤ hello.msgMax ∧ keyLengthValid hello.keylen.toNat = true := by decide +kernel

/-- The state of V42's row 4. -/
def crafted : State := loaded k128 k128 (hex 16 0xa501c3e128628111bce72635e4c0c8e9)

theorem witness_DecmsgDecryptsTheMessage :
    msgMaxLegal crafted.msgMax = true ∧ crafted.ilen.toNat ≤ crafted.msgMax ∧ keyLengthValid crafted.keylen.toNat = true ∧ crafted.ilen ≠ 0#32 ∧
    crafted.ilen.toNat % 16 = 0 ∧
    decryptMessage crafted.message crafted.keyBytes crafted.ivBlock = .ok (hex 13 0x00112233445566778899aabbcc) := by decide +kernel

/-- V41 (ILEN = 0 and ILEN = 17, and 4095, the greatest bad length below MSG_MAX) and V40's second row, each with an older schedule in RK. -/
theorem witness_DecmsgErrorsLeaveTheNewSchedule :
    let at_ (ilen : Len) : State := { scheduled k256 (loaded k128 k128 plain) with ilen := ilen }
    let tampered : State := scheduled k256 (loaded k128 k128 (hex 16 0x1dfe836df70e89310a970a31fa335102))
    keyLengthValid (at_ 0#32).keylen.toNat = true ∧ (at_ 0#32).ilen.toNat ≤ (at_ 0#32).msgMax ∧ (at_ 0#32).ilen = 0#32 ∧
    (at_ 17#32).ilen.toNat ≤ (at_ 17#32).msgMax ∧ (at_ 17#32).ilen.toNat % 16 ≠ 0 ∧
    (at_ 4095#32).ilen.toNat ≤ (at_ 4095#32).msgMax ∧ (at_ 4095#32).ilen.toNat % 16 ≠ 0 ∧
    keyLengthValid tampered.keylen.toNat = true ∧ tampered.ilen.toNat ≤ tampered.msgMax ∧ tampered.ilen ≠ 0#32 ∧ tampered.ilen.toNat % 16 = 0 ∧
    decryptMessage tampered.message tampered.keyBytes tampered.ivBlock = .error .invalidPadding := by decide +kernel

theorem witness_DecmsgUndoesEncmsgInRegisters :
    msgMaxLegal hello.msgMax = true ∧ hello.ilen.toNat ≤ hello.msgMax ∧ keyLengthValid hello.keylen.toNat = true ∧
    hello.ilen.toNat + 16 - hello.ilen.toNat % 16 ≤ hello.msgMax := by decide +kernel

theorem witness_FullBufferCannotBeDecryptedOnTheSameInstance :
    msgMaxLegal ({ hello with msgMax := 16, ilen := 16#32 } : State).msgMax = true ∧ ({ hello with msgMax := 16, ilen := 16#32 } : State).msgMax % 16 = 0 ∧
    ({ hello with msgMax := 16, ilen := 16#32 } : State).ilen.toNat = ({ hello with msgMax := 16, ilen := 16#32 } : State).msgMax ∧
    keyLengthValid ({ hello with msgMax := 16, ilen := 16#32 } : State).keylen.toNat = true := by decide +kernel

theorem witness_ErrorsAreReportedInPriorityOrder :
    ((0x00#8).toNat = 0 ∨ 5 < (0x00#8).toNat) ∧ ((0x06#8).toNat = 0 ∨ 5 < (0x06#8).toNat) := by decide

/-- A command that ends in an error, and one that does not: V25's rows 2 and 5. -/
theorem witness_CommandsEndOnceWithNoPartialResult :
    next (exec .encblk State.reset) (fun t => t.err != 0x00#8) = true ∧ next (exec .encblk blockReady) (fun t => t.err == 0x00#8) = true := by
  decide +kernel

theorem witness_CommandsKeepTheirInputs :
    ({ hello with ilen := 4097#32 } : State).msgMax < ({ hello with ilen := 4097#32 } : State).ilen.toNat ∧
    (locate hello.msgMax 0x10000000#32).access = .readWrite := by decide +kernel

/-- A state with a schedule, and a transaction to come, that meets the invariant; its step changes it. -/
theorem witness_StepKeepsTheInvariant :
    State.Inv { blockReady with pending := [.write 0x00#32 0x06#8] } ∧
    next (step { blockReady with pending := [.write 0x00#32 0x06#8] }) (fun t => t.err != 0x00#8) = true := by
  refine ⟨?_, by decide +kernel⟩
  exact {
    legal := by decide
    errf_iff := by decide
    reserved_zero := by decide
    err_value := by decide
    kvalid_iff := by decide
    rounds_zero := fun h => absurd h (by decide)
    schedule := fun _ => ⟨k128, by decide, rfl, rfl⟩
    no_schedule := fun h => absurd h (by decide)
    olen_bound := by decide
    obuf_tail := fun _ _ => rfl
    failed_empty := fun _ => rfl
    ibuf_wf := by decide +kernel
    obuf_wf := rfl }

theorem witness_MachineNeverStops : msgMaxLegal (atPort .reset).msgMax = true := by decide +kernel

end Sys2Proof.Tests
end

namespace Sys2Proof.Machine

/-! ### The reset state -/

@[simp] theorem lenByte_zero (k : Nat) : lenByte 0#32 k = 0x00#8 := by simp [lenByte]

/-- A host read gives the byte of the location that the address names, or 0x00 (R52). -/
theorem memRead_eq_peek_or_zero (s : State) (a : Addr) :
    memRead s a = s.peek (locate s.msgMax a) ∨ memRead s a = 0x00#8 := by
  unfold memRead
  cases (locate s.msgMax a).access with
  | readOnly | readWrite => exact .inl rfl
  | writeOnly | none => exact .inr rfl

/-- Whatever its index, every location holds 0x00 after reset (R37). -/
@[simp] theorem State.peek_reset (l : Location) : State.reset.peek l = 0x00#8 := by
  cases l with
  | cmd | status | err | keylen | rounds | reserved => rfl
  | ilen k | olen k => exact lenByte_zero k
  | iv j | key j | rk j => exact fileRead_replicate _ j
  | ibuf j | obuf j => exact Memory.read_nil j

/-- The host reads 0x00 everywhere after reset, within the map and outside it. -/
@[simp] theorem memRead_reset (a : Addr) : memRead State.reset a = 0x00#8 :=
  (memRead_eq_peek_or_zero State.reset a).elim (fun h => h.trans (State.peek_reset _)) id

/-- Settles O17: the files and buffers by what a constant file and an empty buffer read as, the scalar registers by definition, and the
host's reads by `memRead_reset`. -/
theorem resetLeavesEverythingZero : Obligations.ResetLeavesEverythingZero := by
  have hkey : ∀ j : Fin 32, State.reset.key[j] = 0x00#8 := fun j => Vector.getElem_replicate j.isLt
  have hiv : ∀ j : Fin 16, State.reset.iv[j] = 0x00#8 := fun j => Vector.getElem_replicate j.isLt
  have hrk : ∀ j : Fin 240, State.reset.rk[j] = 0x00#8 := fun j => Vector.getElem_replicate j.isLt
  exact ⟨hkey, rfl, hiv, rfl, Memory.read_nil, Memory.read_nil, rfl, hrk, rfl, rfl, rfl, rfl, rfl, memRead_reset⟩

end Sys2Proof.Machine

namespace Sys2Proof.Machine

/-! ### The address map -/

/-- Settles O8: one `locateNat_…` law per line of the map. The map writes each range with its last address, the laws with the first address after
it, and `omega` carries one bound to the other. Only OBUF's line needs a bound on MSG_MAX: at most 0x0FFFFFF0, so that IBUF ends below it. -/
theorem addressMapIsTheSpecs : Obligations.AddressMapIsTheSpecs := by
  intro m a legal
  have most := ((msgMaxLegal_iff m).mp legal).right
  unfold locate
  generalize a.toNat = n
  exact ⟨
    locateNat_cmd m n, locateNat_status m n, locateNat_err m n, locateNat_keylen m n,
    fun lo hi => locateNat_ilen m n lo (by omega),
    fun lo hi => locateNat_olen m n lo (by omega),
    locateNat_rounds m n,
    fun lo hi => locateNat_reserved_low m n lo (by omega),
    fun lo hi => locateNat_iv m n lo (by omega),
    fun lo hi => locateNat_key m n lo (by omega),
    fun lo hi => locateNat_reserved_mid m n lo (by omega),
    fun lo hi => locateNat_rk m n lo (by omega),
    fun lo hi => locateNat_reserved_high m n lo (by omega),
    fun lo hi => locateNat_ibuf m n lo (by omega),
    fun lo hi => locateNat_reserved_ibuf m n lo (by omega),
    fun lo hi => locateNat_obuf m n most lo (by omega),
    locateNat_reserved_obuf m n,
    rfl, rfl, rfl, rfl, rfl, rfl, fun _ => ⟨rfl, rfl, rfl, rfl, rfl, rfl, rfl⟩⟩

end Sys2Proof.Machine

namespace Sys2Proof.Machine

/-! ### The decoder and illegal opcodes -/

/-- Every row of the opcode table compares the whole byte with its command's opcode (R81). -/
theorem opcodeTable_row : ∀ r ∈ opcodeTable, r.mask = 0xFF#8 ∧ r.pattern = encode r.instr := by decide

@[simp] theorem decode_encode (i : Instr) : decode (encode i) = .ok i := by
  cases i <;> rfl

/-- What the decoder can answer, said once: the byte is a command's opcode, or it is illegal. -/
theorem decode_cases (op : Byte) :
    (∃ i, op = encode i ∧ decode op = .ok i) ∨ decode op = .error (.illegalCommand op) := by
  unfold decode
  split
  next r found =>
    obtain ⟨mask_eq, pattern_eq⟩ := opcodeTable_row r (List.mem_of_find?_eq_some found)
    have matched : op &&& r.mask = r.pattern := by simpa using List.find?_some found
    have whole_byte : op &&& 0xFF#8 = op := BitVec.and_allOnes
    rw [mask_eq, pattern_eq, whole_byte] at matched
    exact .inl ⟨r.instr, matched, rfl⟩
  next => exact .inr rfl

/-- Opcodes are 0x01 to 0x05, by the statement made of every command. -/
theorem encode_bounds (i : Instr) : 0x01 ≤ (encode i).toNat ∧ (encode i).toNat ≤ 0x05 := by
  have statement : Laws.Opcode.Statement i := by
    cases i with
    | expandkey => exact Laws.Opcode.expandkey
    | encblk => exact Laws.Opcode.encblk
    | decblk => exact Laws.Opcode.decblk
    | encmsg => exact Laws.Opcode.encmsg
    | decmsg => exact Laws.Opcode.decmsg
  obtain ⟨-, least, most, -⟩ := statement
  exact ⟨least, most⟩

theorem decode_illegal {op : Byte} (illegal : op.toNat = 0 ∨ 6 ≤ op.toNat) : decode op = .error (.illegalCommand op) := by
  obtain ⟨i, rfl, -⟩ | error := decode_cases op
  · have bounds := encode_bounds i
    omega
  · exact error

theorem runCommand_illegal {op : Byte} (illegal : op.toNat = 0 ∨ 6 ≤ op.toNat) (s : State) :
    runCommand op s = .next (s.fail .illegalCommand) := by
  simp only [runCommand, decode_illegal illegal, execIllegal]

/-- Settles O1: each opcode byte is, bit by bit, the encoding of its command, and the table's rows are read off `opcodeTable_row`. -/
theorem opcodeBytesDecodeToTheirCommands : Obligations.OpcodeBytesDecodeToTheirCommands :=
  ⟨decode_encode .expandkey, decode_encode .encblk, decode_encode .decblk, decode_encode .encmsg, decode_encode .decmsg,
    rfl, opcodeTable_row⟩

/-- Settles O3: an illegal opcode only takes the shared error path, `State.fail`, whose laws are the three claims. -/
theorem illegalOpcodeRaisesIllegalCommand : Obligations.IllegalOpcodeRaisesIllegalCommand := by
  intro s op illegal
  exact ⟨s.fail .illegalCommand, runCommand_illegal illegal s, State.fail_failed _ s, State.fail_sameSchedule _ s,
    State.fail_sameInputs _ s⟩

end Sys2Proof.Machine

namespace Sys2Proof.Machine

/-! ### GF(2^8): multiplication adds in each operand

The loops of R102 test a bit and conditionally XOR, so each adds in what it reads. An equation between maps that add in each operand then
needs checking on the eight powers of x alone (`byte_xor_induction`, `AddsInEach.eq_of_bits`). -/

/-- A conditional XOR adds in its condition and its accumulator. -/
theorem ite_xor_add_cond {w : Nat} (p q : Bool) (t u c : BitVec w) :
    (if p then t ^^^ c else t) ^^^ (if q then u ^^^ c else u) = if p ^^ q then t ^^^ u ^^^ c else t ^^^ u := by
  cases p <;> cases q
  case false.false => rfl
  case false.true => exact (BitVec.xor_assoc t u c).symm
  case true.false =>
    change t ^^^ c ^^^ u = t ^^^ u ^^^ c
    ac_rfl
  case true.true =>
    calc t ^^^ c ^^^ (u ^^^ c) = t ^^^ u ^^^ (c ^^^ c) := by ac_rfl
      _ = t ^^^ u := by rw [BitVec.xor_self, BitVec.xor_zero]

/-- A conditional XOR adds in its accumulator and what it adds. -/
theorem ite_xor_add_term {w : Nat} (p : Bool) (t u c d : BitVec w) :
    (if p then t ^^^ c else t) ^^^ (if p then u ^^^ d else u) = if p then t ^^^ u ^^^ (c ^^^ d) else t ^^^ u := by
  cases p
  · rfl
  · simp only [if_true]
    ac_rfl

theorem reduce_xor (t u : BitVec 15) : reduce (t ^^^ u) = reduce t ^^^ reduce u := by
  unfold reduce
  rw [← BitVec.setWidth_xor, List.foldl_hom₂]
  intro t u i
  rw [BitVec.getLsbD_xor, ite_xor_add_cond]

theorem carrylessProduct_xor_left (a b c : Byte) :
    carrylessProduct (a ^^^ b) c = carrylessProduct a c ^^^ carrylessProduct b c := by
  refine List.foldl_hom₂ _ (· ^^^ ·) _ _ _ 0#15 0#15 fun t u i => ?_
  rw [ite_xor_add_term, BitVec.setWidth_xor, BitVec.shiftLeft_xor_distrib]

theorem carrylessProduct_xor_right (a b c : Byte) :
    carrylessProduct a (b ^^^ c) = carrylessProduct a b ^^^ carrylessProduct a c := by
  refine List.foldl_hom₂ _ (· ^^^ ·) _ _ _ 0#15 0#15 fun t u i => ?_
  rw [BitVec.getLsbD_xor, ite_xor_add_cond]

theorem gfMultiply_xor_left (a b c : Byte) : gfMultiply (a ^^^ b) c = gfMultiply a c ^^^ gfMultiply b c := by
  simp only [gfMultiply, carrylessProduct_xor_left, reduce_xor]

theorem gfMultiply_xor_right (a b c : Byte) : gfMultiply a (b ^^^ c) = gfMultiply a b ^^^ gfMultiply a c := by
  simp only [gfMultiply, carrylessProduct_xor_right, reduce_xor]

theorem xtime_xor (a b : Byte) : xtime (a ^^^ b) = xtime a ^^^ xtime b := by
  have carry : (if (a ^^^ b).getLsbD 7 then 0x1B#8 else 0x00#8) =
      (if a.getLsbD 7 then 0x1B#8 else 0x00#8) ^^^ (if b.getLsbD 7 then 0x1B#8 else 0x00#8) := by
    rw [BitVec.getLsbD_xor]
    cases a.getLsbD 7 <;> cases b.getLsbD 7 <;> rfl
  simp only [xtime, carry, BitVec.shiftLeft_xor_distrib]
  ac_rfl

/-! ### Bytes as sums of powers of x -/

/-- A byte is the sum of the powers of x at its 1 bits (R100). -/
theorem foldl_bits_eq (a : Byte) :
    (List.range 8).foldl (fun t i => if a.getLsbD i then t ^^^ 1#8 <<< i else t) 0x00#8 = a := by
  revert a
  decide +kernel

/-- What holds of 0x00 and of the powers of x and is kept by sums holds of every byte. -/
theorem byte_xor_induction {P : Byte → Prop} (zero : P 0x00#8) (bit : ∀ i < 8, P (1#8 <<< i))
    (xor : ∀ a b, P a → P b → P (a ^^^ b)) (a : Byte) : P a := by
  rw [← foldl_bits_eq a]
  refine List.foldlRecOn _ _ zero fun t ht i hi => ?_
  split
  · exact xor t _ ht (bit i (List.mem_range.mp hi))
  · exact ht

/-- A map of two bytes that adds in each of them. -/
structure AddsInEach (f : Byte → Byte → Byte) : Prop where
  left : ∀ a b c, f (a ^^^ b) c = f a c ^^^ f b c
  right : ∀ a b c, f a (b ^^^ c) = f a b ^^^ f a c

/-- An additive map takes 0x00 to 0x00. -/
theorem map_zero_of_add {f : Byte → Byte} (add : ∀ a b, f (a ^^^ b) = f a ^^^ f b) : f 0x00#8 = 0x00#8 :=
  calc f 0x00#8 = f (0x00#8 ^^^ 0x00#8) := by rw [BitVec.xor_self]
    _ = 0x00#8 := by rw [add, BitVec.xor_self]

theorem AddsInEach.right_zero {f : Byte → Byte → Byte} (hf : AddsInEach f) (a : Byte) : f a 0x00#8 = 0x00#8 :=
  map_zero_of_add (hf.right a)

theorem AddsInEach.left_zero {f : Byte → Byte → Byte} (hf : AddsInEach f) (b : Byte) : f 0x00#8 b = 0x00#8 :=
  map_zero_of_add (f := (f · b)) (hf.left · · b)

/-- Maps that add in each operand are equal when they agree on the powers of x. -/
theorem AddsInEach.eq_of_bits {f g : Byte → Byte → Byte} (hf : AddsInEach f) (hg : AddsInEach g)
    (bits : ∀ i < 8, ∀ j < 8, f (1#8 <<< i) (1#8 <<< j) = g (1#8 <<< i) (1#8 <<< j)) (a b : Byte) : f a b = g a b := by
  induction a using byte_xor_induction with
  | zero => rw [hf.left_zero, hg.left_zero]
  | xor a a' iha iha' => rw [hf.left, hg.left, iha, iha']
  | bit i hi =>
    induction b using byte_xor_induction with
    | zero => rw [hf.right_zero, hg.right_zero]
    | xor b b' ihb ihb' => rw [hf.right, hg.right, ihb, ihb']
    | bit j hj => exact bits i hi j hj

/-! ### The laws of multiplication -/

theorem gfMultiply_addsInEach : AddsInEach gfMultiply := ⟨gfMultiply_xor_left, gfMultiply_xor_right⟩

@[simp] theorem gfMultiply_zero (a : Byte) : gfMultiply a 0x00#8 = 0x00#8 := gfMultiply_addsInEach.right_zero a

@[simp] theorem zero_gfMultiply (a : Byte) : gfMultiply 0x00#8 a = 0x00#8 := gfMultiply_addsInEach.left_zero a

theorem gfMultiply_comm (a b : Byte) : gfMultiply a b = gfMultiply b a := by
  have swapped : AddsInEach fun a b => gfMultiply b a :=
    ⟨fun a b c => gfMultiply_xor_right c a b, fun a b c => gfMultiply_xor_left b c a⟩
  exact gfMultiply_addsInEach.eq_of_bits swapped (by decide +kernel) a b

theorem gfMultiply_xtime (a b : Byte) : gfMultiply a (xtime b) = xtime (gfMultiply a b) := by
  have before : AddsInEach fun a b => gfMultiply a (xtime b) :=
    ⟨fun a b c => gfMultiply_xor_left a b _, fun a b c => by simp only [xtime_xor, gfMultiply_xor_right]⟩
  have after : AddsInEach fun a b => xtime (gfMultiply a b) :=
    ⟨fun a b c => by simp only [gfMultiply_xor_left, xtime_xor], fun a b c => by simp only [gfMultiply_xor_right, xtime_xor]⟩
  exact before.eq_of_bits after (by decide +kernel) a b

@[simp] theorem gfMultiply_one (a : Byte) : gfMultiply a 0x01#8 = a := by
  induction a using byte_xor_induction with
  | zero => rw [zero_gfMultiply]
  | bit i hi => decide +revert +kernel
  | xor a b iha ihb => rw [gfMultiply_xor_left, iha, ihb]

@[simp] theorem one_gfMultiply (a : Byte) : gfMultiply 0x01#8 a = a := by
  rw [gfMultiply_comm, gfMultiply_one]

/-- Multiplication by a power of x is repeated `xtime`. -/
theorem gfMultiply_one_shiftLeft (a : Byte) : ∀ k < 8, gfMultiply a (1#8 <<< k) = xtime^[k] a
  | 0, _ => gfMultiply_one a
  | k + 1, hk => by
    have next_bit : ∀ k < 7, 1#8 <<< (k + 1) = xtime (1#8 <<< k) := by decide
    rw [next_bit k (by omega), gfMultiply_xtime, gfMultiply_one_shiftLeft a k (by omega), Function.iterate_succ_apply']

theorem gfMultiply_assoc (a b c : Byte) : gfMultiply (gfMultiply a b) c = gfMultiply a (gfMultiply b c) := by
  induction c using byte_xor_induction with
  | zero => simp only [gfMultiply_zero]
  | xor c c' ihc ihc' => simp only [gfMultiply_xor_right, ihc, ihc']
  | bit k hk =>
    have commutes : Function.Semiconj (gfMultiply a) xtime xtime := gfMultiply_xtime a
    rw [gfMultiply_one_shiftLeft _ k hk, gfMultiply_one_shiftLeft b k hk, (commutes.iterate_right k).eq]

theorem gfMultiply_two (a : Byte) : gfMultiply a 0x02#8 = xtime a := gfMultiply_one_shiftLeft a 1 (by decide)

theorem gfMultiply_four (a : Byte) : gfMultiply a 0x04#8 = xtime (xtime a) := gfMultiply_one_shiftLeft a 2 (by decide)

theorem gfMultiply_eight (a : Byte) : gfMultiply a 0x08#8 = xtime (xtime (xtime a)) := gfMultiply_one_shiftLeft a 3 (by decide)

/-- R103's formula on the bytes' values: bit 7 is 1 exactly from 128 on. -/
theorem xtime_toNat (a : Byte) : (xtime a).toNat = (a.toNat * 2 % 256) ^^^ (if a.toNat ≥ 128 then 0x1B else 0) := by
  have bit_seven : a.getLsbD 7 = decide (128 ≤ a.toNat) := BitVec.msb_eq_decide a
  rw [xtime, BitVec.toNat_xor, bit_seven, BitVec.toNat_shiftLeft, Nat.shiftLeft_eq, pow_one]
  by_cases h : 128 ≤ a.toNat <;> simp [h]

/-! ### The inverse

Multiplication makes the 255 bytes other than 0x00 a group, in which the printed table gives the inverses. So a^255 = 0x01 for each of them, and
the power a^254 that `gfInverse` computes is the table's entry. -/

/-- R106's test of the printed table, entry by entry. -/
theorem gfMultiply_tableEntry_inverse : ∀ a : Byte, a ≠ 0x00#8 → gfMultiply a (tableEntry gfInverseRows a) = 0x01#8 := by
  decide +kernel

theorem tableEntry_inverse_ne_zero {a : Byte} (ha : a ≠ 0x00#8) : tableEntry gfInverseRows a ≠ 0x00#8 := by
  intro entry
  have product := gfMultiply_tableEntry_inverse a ha
  rw [entry, gfMultiply_zero] at product
  exact absurd product (by decide)

/-- No zero divisors: a factor that is not 0x00 cancels by its inverse. -/
theorem eq_zero_or_eq_zero_of_gfMultiply_eq_zero {a b : Byte} (product : gfMultiply a b = 0x00#8) : a = 0x00#8 ∨ b = 0x00#8 := by
  refine or_iff_not_imp_left.mpr fun ha => ?_
  calc b = gfMultiply (gfMultiply (tableEntry gfInverseRows a) a) b := by
        rw [gfMultiply_comm _ a, gfMultiply_tableEntry_inverse a ha, one_gfMultiply]
    _ = 0x00#8 := by rw [gfMultiply_assoc, product, gfMultiply_zero]

theorem gfMultiply_ne_zero {a b : Byte} (ha : a ≠ 0x00#8) (hb : b ≠ 0x00#8) : gfMultiply a b ≠ 0x00#8 :=
  fun product => (eq_zero_or_eq_zero_of_gfMultiply_eq_zero product).elim ha hb

/-- The bytes other than 0x00 under multiplication, with the printed table's entries as inverses. -/
@[reducible] def nonzeroByteGroup : CommGroup {a : Byte // a ≠ 0x00#8} where
  mul a b := ⟨gfMultiply a b, gfMultiply_ne_zero a.property b.property⟩
  one := ⟨0x01#8, by decide⟩
  inv a := ⟨tableEntry gfInverseRows a, tableEntry_inverse_ne_zero a.property⟩
  mul_assoc a b c := Subtype.ext (gfMultiply_assoc a b c)
  one_mul a := Subtype.ext (one_gfMultiply a)
  mul_one a := Subtype.ext (gfMultiply_one a)
  inv_mul_cancel a := Subtype.ext ((gfMultiply_comm _ _).trans (gfMultiply_tableEntry_inverse a a.property))
  mul_comm a b := Subtype.ext (gfMultiply_comm a b)

theorem card_nonzeroByte : Nat.card {a : Byte // a ≠ 0x00#8} = 255 := by
  have card_byte : Fintype.card Byte = 256 := FinEnum.card_eq_fintypeCard.symm
  simp [Fintype.card_subtype_compl, card_byte]

section Powers
variable {M : Type} [Monoid M] {byte : M → Byte} (byte_mul : ∀ x y, byte (x * y) = gfMultiply (byte x) (byte y))
include byte_mul

/-- Where bytes stand for a monoid's elements and `gfMultiply` for its product, `gfSquares` is the power 2^n. -/
theorem gfSquares_eq_pow (n : Nat) (x : M) : gfSquares n (byte x) = byte (x ^ 2 ^ n) := by
  induction n generalizing x with
  | zero => rw [gfSquares, pow_zero, pow_one]
  | succ n ih => rw [gfSquares, ← byte_mul, ih, ← pow_two, ← pow_mul, pow_succ']

/-- Under the same reading, `gfInverse` is the power 2 + 4 + 8 + 16 + 32 + 64 + 128 = 254 (R105). -/
theorem gfInverse_eq_pow (x : M) : gfInverse (byte x) = byte (x ^ 254) := by
  simp only [gfInverse, List.foldl_cons, List.foldl_nil, gfSquares_eq_pow byte_mul, ← byte_mul, ← pow_add]
  rfl

end Powers

/-- The printed table is the power a^254 that `gfInverse` computes. -/
theorem tableEntry_inverse_eq_gfInverse (a : Byte) : tableEntry gfInverseRows a = gfInverse a := by
  by_cases ha : a = 0x00#8
  · subst ha
    decide +kernel
  let x : {a : Byte // a ≠ 0x00#8} := ⟨a, ha⟩
  let _ := nonzeroByteGroup
  have lagrange : x * x ^ 254 = 1 := by
    calc x * x ^ 254 = x ^ 255 := (pow_succ' x 254).symm
      _ = 1 := card_nonzeroByte ▸ pow_card_eq_one'
  have inverse : x⁻¹ = x ^ 254 := inv_eq_of_mul_eq_one_right lagrange
  calc tableEntry gfInverseRows a = (x⁻¹).val := rfl
    _ = (x ^ 254).val := by rw [inverse]
    _ = gfInverse a := (gfInverse_eq_pow (byte := Subtype.val) (fun _ _ => rfl) x).symm

/-- Settles O21: the constants of item 6 are sums of powers of x, over which multiplication distributes. -/
theorem fieldMultiplicationLaws : Obligations.FieldMultiplicationLaws := by
  refine ⟨gfMultiply_comm, gfMultiply_assoc, gfMultiply_xor_right,
    fun a => ⟨gfMultiply_one a, one_gfMultiply a, gfMultiply_zero a, zero_gfMultiply a⟩,
    fun _ _ => eq_zero_or_eq_zero_of_gfMultiply_eq_zero, fun a => ?_⟩
  have three : 0x03#8 = 0x02#8 ^^^ 0x01#8 := rfl
  have nine : 0x09#8 = 0x08#8 ^^^ 0x01#8 := rfl
  have eleven : 0x0B#8 = 0x08#8 ^^^ 0x02#8 ^^^ 0x01#8 := rfl
  have thirteen : 0x0D#8 = 0x08#8 ^^^ 0x04#8 ^^^ 0x01#8 := rfl
  have fourteen : 0x0E#8 = 0x08#8 ^^^ 0x04#8 ^^^ 0x02#8 := rfl
  simp only [three, nine, eleven, thirteen, fourteen, gfMultiply_xor_right, gfMultiply_one, gfMultiply_two, gfMultiply_four,
    gfMultiply_eight, and_self]

/-- Settles O20: 0x02 is the first power of x; the corner cases and the chain run the model. -/
theorem xtimeIsMultiplicationByTwo : Obligations.XtimeIsMultiplicationByTwo :=
  ⟨fun a => (gfMultiply_two a).symm, xtime_toNat, rfl, rfl, rfl, rfl, by decide⟩

/-- Settles O23: Lagrange's theorem for the group of nonzero bytes, whose inverses the printed table's entries are. -/
theorem inverseTableIsGfInverse : Obligations.InverseTableIsGfInverse :=
  fun a => ⟨tableEntry_inverse_eq_gfInverse a, gfMultiply_tableEntry_inverse a⟩

end Sys2Proof.Machine

namespace Sys2Proof.Machine

/-! ### The substitution tables -/

/-- The affine step of R120, which `sboxFormula` takes after `gfInverse`. -/
def affineMap (b : Byte) : Byte := b ^^^ rotl8 b 1 ^^^ rotl8 b 2 ^^^ rotl8 b 3 ^^^ rotl8 b 4 ^^^ 0x63#8

theorem sboxFormula_eq_affineMap (a : Byte) : sboxFormula a = affineMap (gfInverse a) := rfl

/-- The printed tables of R106 and R121, compared entry by entry. -/
theorem sbox_eq_affineMap_tableEntry : ∀ a : Byte, sbox a = affineMap (tableEntry gfInverseRows a) := by decide +kernel

theorem sbox_eq_sboxFormula (a : Byte) : sbox a = sboxFormula a := by
  rw [sboxFormula_eq_affineMap, ← tableEntry_inverse_eq_gfInverse, sbox_eq_affineMap_tableEntry]

/-- The printed tables of R121 and R122, compared entry by entry. -/
@[simp] theorem invSbox_sbox : ∀ a : Byte, invSbox (sbox a) = a := by decide +kernel

theorem sbox_injective : Function.Injective sbox := Function.LeftInverse.injective invSbox_sbox

/-- There are finitely many bytes, so an injective table takes every value. -/
theorem sbox_surjective : Function.Surjective sbox := Finite.injective_iff_surjective.mp sbox_injective

@[simp] theorem sbox_invSbox : ∀ a : Byte, sbox (invSbox a) = a :=
  Function.LeftInverse.rightInverse_of_surjective invSbox_sbox sbox_surjective

theorem sbox_ne_self : ∀ a : Byte, sbox a ≠ a := by decide +kernel

/-- Settles O24: the affine map of R106's table, which is `gfInverse`, gives R121's table; SBOX has the left inverse INVSBOX, so it is a permutation. -/
theorem sboxIsTheAffineMapOfTheInverse : Obligations.SboxIsTheAffineMapOfTheInverse :=
  ⟨sbox_eq_sboxFormula, fun _ _ h => sbox_injective h, sbox_surjective, sbox_ne_self, rfl⟩

/-- Settles O25: the left inverse read off the tables is the right inverse too, as SBOX takes every value; the corner entries run the model. -/
theorem invSboxIsTheExactInverse : Obligations.InvSboxIsTheExactInverse :=
  ⟨fun a => ⟨invSbox_sbox a, sbox_invSbox a⟩, rfl, rfl, rfl, rfl⟩

/-! ### The inverse diffusion matrix -/

/-- Each row of MINV is the row above it rotated right, so rotating a column rotates its image. -/
theorem matrixMinv_apply_rotWord (w : Word) : matrixMinv.apply (rotWord w) = rotWord (matrixMinv.apply w) := by
  simp only [DiffusionMatrix.apply, matrixMinv, gfDot, rotWord, Word.mk.injEq]
  refine ⟨?_, ?_, ?_, ?_⟩ <;> ac_rfl

/-- Settles O26: M's columns are rotations of its first, so only the first product is computed; each of the others is a rotation of the one
before it, in the order first, fourth, third, second. -/
theorem inverseMatrixTimesMatrixIsIdentity : Obligations.InverseMatrixTimesMatrixIsIdentity := by
  have first : matrixMinv.apply ⟨0x02#8, 0x01#8, 0x01#8, 0x03#8⟩ = ⟨0x01#8, 0x00#8, 0x00#8, 0x00#8⟩ := by decide +kernel
  have fourth := (matrixMinv_apply_rotWord _).trans (congrArg rotWord first)
  have third := (matrixMinv_apply_rotWord _).trans (congrArg rotWord fourth)
  have second := (matrixMinv_apply_rotWord _).trans (congrArg rotWord third)
  exact ⟨rfl, first, second, third, fourth⟩

/-! ### The known-answer vector -/

/-- Settles O36: key expansion and the ten rounds, run on the vector of R126. -/
theorem knownAnswerVector : Obligations.KnownAnswerVector := by
  unfold Obligations.KnownAnswerVector
  decide +kernel

end Sys2Proof.Machine

namespace Sys2Proof.Machine

/-! ### What ends with the schedule cleared, and what keeps it -/

theorem messageCommand_invalid_key_length (body : State → Except ErrorKind (List Byte)) {s : State} (fits : s.ilen.toNat ≤ s.msgMax)
    (invalid : keyLengthValid s.keylen.toNat = false) : messageCommand body s = s.clearSchedule.fail .invalidKeyLength := by
  obtain ⟨too_long, -⟩ | ⟨-, -, ends⟩ | ⟨-, valid, -⟩ := messageCommand_cases body s
  · omega
  · exact ends
  · exact absurd (invalid.symm.trans valid) Bool.false_ne_true

/-- A key length outside 16, 24 and 32 ends every command that loads a key alike: the schedule cleared, then InvalidKeyLength (R147, R194, R195). -/
theorem exec_invalid_key_length {i : Instr} {s : State} (loads : i = .expandkey ∨ ((i = .encmsg ∨ i = .decmsg) ∧ s.ilen.toNat ≤ s.msgMax))
    (invalid : keyLengthValid s.keylen.toNat = false) : exec i s = .next (s.clearSchedule.fail .invalidKeyLength) := by
  obtain rfl | ⟨rfl | rfl, fits⟩ := loads
  · exact exec_expandkey_invalid invalid
  · rw [exec_encmsg, messageCommand_invalid_key_length _ fits invalid]
  · rw [exec_decmsg, messageCommand_invalid_key_length _ fits invalid]

/-- However a block command ends, the schedule stands as it stood. -/
theorem blockCommand_sameSchedule (f : Block → List Block → Block) (s : State) : SameSchedule s (blockCommand f s) := by
  obtain ⟨-, ends⟩ | ⟨-, -, ends⟩ | ⟨-, -, ends⟩ := blockCommand_cases f s <;> rw [ends]
  · exact State.fail_sameSchedule _ s
  · exact State.fail_sameSchedule _ s
  · exact State.complete_sameSchedule _ s

/-- Settles O27: every command that loads a key of a bad length takes the one path through `clearSchedule`; the block commands end in `fail` or
`complete`, and neither they nor a host write touches the schedule. -/
theorem scheduleHasRoundsPlusOneKeys : Obligations.ScheduleHasRoundsPlusOneKeys := by
  refine ⟨fun key => ?_, fun i s loads h16 h24 h32 => ?_, fun s => ⟨fun i block => ?_, fun a v => ?_⟩⟩
  · have keys := expandKey_length key
    omega
  · have invalid : keyLengthValid s.keylen.toNat = false := by
      rw [Bool.eq_false_iff, ne_eq, keyLengthValid_iff]
      bv_omega
    exact ⟨_, exec_invalid_key_length loads invalid, State.fail_failed _ _, fun j => Vector.getElem_replicate j.isLt, rfl, by simp,
      s.clearSchedule_sameInputs.trans (State.fail_sameInputs _ _)⟩
  · obtain rfl | rfl := block
    · exact ⟨_, exec_encblk s, blockCommand_sameSchedule _ s⟩
    · exact ⟨_, exec_decblk s, blockCommand_sameSchedule _ s⟩
  · obtain ⟨results, -⟩ := memWrite_frame s a v
    exact ⟨results.rk, results.rounds, results.status⟩

end Sys2Proof.Machine

namespace Sys2Proof

/-! ### Byte sequences as words and columns -/

/-- The four bytes of a word of a byte sequence. -/
theorem Word.ofBytes_drop (l : List Byte) (i : Nat) :
    Word.ofBytes (l.drop i) = ⟨l.getD i 0, l.getD (i + 1) 0, l.getD (i + 2) 0, l.getD (i + 3) 0⟩ := by
  simp [Word.ofBytes, List.getD_eq_getElem?_getD]

theorem Block.ext_col {a b : Block} (h : ∀ c, c < 4 → a.col c = b.col c) : a = b := by
  cases a
  cases b
  exact Block.mk.injEq .. ▸ ⟨h 0 (by decide), h 1 (by decide), h 2 (by decide), h 3 (by decide)⟩

theorem Block.col_ofBytes (l : List Byte) {c : Nat} (hc : c < 4) : (Block.ofBytes l).col c = Word.ofBytes (l.drop (4 * c)) := by
  interval_cases c <;> rfl

end Sys2Proof

namespace Sys2Proof.Machine

/-! ### Key expansion: the recurrence -/

/-- R145 of a word sequence: each word from index Nk on is the XOR of the word Nk before it and the transformed word before it. -/
def FollowsRecurrence (nk : Nat) (words : List Word) : Prop :=
  ∀ i, nk ≤ i → i < words.length → words.getD i .zero = (words.getD (i - nk) .zero).xor
    (transformWord nk i (roundConstant (i / nk - 1)) (words.getD (i - 1) .zero))

theorem FollowsRecurrence.of_length_le {nk : Nat} {words : List Word} (h : words.length ≤ nk) : FollowsRecurrence nk words :=
  fun _ _ _ => by omega

/-- The recurrence extends by the word it gives. -/
theorem FollowsRecurrence.append {nk : Nat} {words : List Word} {w : Word} (h : FollowsRecurrence nk words) (pos : 0 < nk)
    (hw : w = (words.getD (words.length - nk) .zero).xor
      (transformWord nk words.length (roundConstant (words.length / nk - 1)) (words.getD (words.length - 1) .zero))) :
    FollowsRecurrence nk (words ++ [w]) := by
  intro i lo hi
  rw [List.length_append, List.length_singleton] at hi
  rw [List.getD_append _ _ _ (i - nk) (by omega), List.getD_append _ _ _ (i - 1) (by omega)]
  obtain old | rfl : i < words.length ∨ i = words.length := by omega
  · rw [List.getD_append _ _ _ _ old, h i lo old]
  · rw [List.getD_append_right _ _ _ _ le_rfl, Nat.sub_self, List.getD_cons_zero, hw]

/-- The round constant that the loop holds at index `i + 1` is the one the recurrence names there, where the transformation reads it (R144, R145). -/
theorem transformWord_roundConstant (nk i : Nat) (t : Word) :
    transformWord nk (i + 1) (roundConstant (i / nk)) t = transformWord nk (i + 1) (roundConstant ((i + 1) / nk - 1)) t := by
  unfold transformWord
  split
  next multiple => rw [Nat.succ_div_of_dvd (Nat.dvd_of_mod_eq_zero multiple), Nat.add_sub_cancel]
  next => rfl

/-- The loop doubles the round constant exactly when the index passes a multiple of Nk (R144, R145). -/
theorem roundConstant_succ_div (nk i : Nat) :
    (if (i + 1) % nk = 0 then xtime (roundConstant (i / nk)) else roundConstant (i / nk)) = roundConstant ((i + 1) / nk) := by
  split
  next multiple => rw [Nat.succ_div_of_dvd (Nat.dvd_of_mod_eq_zero multiple), roundConstant]
  next between => rw [Nat.succ_div_of_not_dvd fun multiple => between (Nat.mod_eq_zero_of_dvd multiple)]

/-- The loop keeps the recurrence, on the words in their own order. -/
theorem expandLoop_followsRecurrence {nk : Nat} (pos : 0 < nk) (n i : Nat) (words : List Word) (length : words.length = i + 1)
    (first : nk ≤ i + 1) (h : FollowsRecurrence nk words.reverse) :
    FollowsRecurrence nk (expandLoop nk n (i + 1) (roundConstant (i / nk)) words).reverse := by
  induction n generalizing i words with
  | zero => exact h
  | succ n ih =>
    simp only [expandLoop, roundConstant_succ_div]
    refine ih (i + 1) _ (by simp [length]) (by omega) ?_
    rw [List.reverse_cons]
    refine h.append pos ?_
    have back : words.reverse.getD (i + 1 - nk) .zero = words.getD (nk - 1) .zero := by
      rw [List.getD_reverse _ (by omega)]
      congr 1
      omega
    have last : words.reverse.getD i .zero = words.headD .zero := by
      rw [List.getD_reverse _ (by omega), length, List.headD_eq_head?_getD, List.head?_eq_getElem?, List.getD_eq_getElem?_getD]
      simp
    rw [List.length_reverse, length, back, Nat.add_sub_cancel, last, transformWord_roundConstant]

/-- The loop adds words in front and keeps those it was given. -/
theorem suffix_expandLoop (nk n i : Nat) (rc : Byte) (words : List Word) : words <:+ expandLoop nk n i rc words := by
  induction n generalizing i rc words with
  | zero => exact List.suffix_rfl
  | succ n ih => exact (List.suffix_cons _ _).trans (ih _ _ _)

theorem expandWords_followsRecurrence {key : List Byte} (pos : 0 < key.length / 4) :
    FollowsRecurrence (key.length / 4) (expandWords key) := by
  obtain ⟨i, hi⟩ := Nat.exists_eq_add_one.mpr pos
  have start : i / (i + 1) = 0 := Nat.div_eq_of_lt (Nat.lt_succ_self i)
  have loop := expandLoop_followsRecurrence (Nat.succ_pos i) (4 * (roundsOf key.length + 1) - (i + 1)) i
    (wordsOf (i + 1) key).reverse (by simp) le_rfl (.of_length_le (by simp))
  rw [start] at loop
  simp only [expandWords, hi]
  exact loop

/-- The expansion begins with the key's own words (R145). -/
theorem wordsOf_isPrefix_expandWords (key : List Byte) : wordsOf (key.length / 4) key <+: expandWords key := by
  rw [expandWords, ← List.reverse_suffix, List.reverse_reverse]
  exact suffix_expandLoop _ _ _ _ _

theorem getD_expandWords_of_lt {key : List Byte} {i : Nat} (h : i < key.length / 4) :
    (expandWords key).getD i .zero = Word.ofBytes (key.drop (4 * i)) := by
  obtain ⟨rest, words⟩ := wordsOf_isPrefix_expandWords key
  rw [← words, List.getD_append _ _ _ _ (by simpa using h), getD_wordsOf _ _ _ h]

/-- Column `c` of group `k` is word `4k + c` (R146). -/
theorem col_groupWords (words : List Word) (k c : Nat) (hk : k < words.length / 4) (hc : c < 4) :
    ((groupWords words).getD k .zero).col c = words.getD (4 * k + c) .zero := by
  induction words using groupWords.induct generalizing k with
  | case1 a b c' d rest ih =>
    cases k with
    | zero => interval_cases c <;> rfl
    | succ k =>
      have shift : 4 * (k + 1) + c = 4 * k + c + 4 := by omega
      rw [groupWords, List.getD_cons_succ, ih k (by simp at hk; omega), shift]
      rfl
  | case2 words short =>
    match words with
    | [] | [_] | [_, _] | [_, _, _] => simp at hk
    | a :: b :: c' :: d :: rest => exact (short a b c' d rest rfl).elim

/-- Column `c` of round key `k` is word `4k + c` of the expansion (R146). -/
theorem col_roundKey_expandKey {key : List Byte} (pos : 0 < key.length / 4) {k c : Nat} (hk : k < key.length / 4 + 7) (hc : c < 4) :
    (roundKey (expandKey key) k).col c = (expandWords key).getD (4 * k + c) .zero :=
  col_groupWords _ k c (by rw [expandWords_length key pos, roundsOf]; omega) hc

/-- Where the key's own words stand in the round keys (R146). -/
theorem col_roundKey_expandKey_of_lt {key : List Byte} {k c : Nat} (hc : c < 4) (h : 4 * k + c < key.length / 4) :
    (roundKey (expandKey key) k).col c = Word.ofBytes (key.drop (4 * (4 * k + c))) := by
  rw [col_roundKey_expandKey (by omega) (by omega) hc, getD_expandWords_of_lt h]

/-- A round key whose four words are the key's own is sixteen bytes of the key. -/
theorem roundKey_expandKey_eq_ofBytes {key : List Byte} {k : Nat} (h : 4 * k + 4 ≤ key.length / 4) :
    roundKey (expandKey key) k = Block.ofBytes (key.drop (16 * k)) := by
  refine Block.ext_col fun c hc => ?_
  rw [col_roundKey_expandKey_of_lt hc (by omega), Block.col_ofBytes _ hc, List.drop_drop]
  congr 2
  omega

/-- Settles O28: word `i` of the obligation is word `i` of the expansion, which begins with the key's words and, by induction over the loop,
follows the recurrence. -/
theorem expansionFollowsTheRecurrence : Obligations.ExpansionFollowsTheRecurrence := by
  intro key nk w length hnk hw
  subst hnk
  have pos : 0 < key.length / 4 := by omega
  have word (i : Nat) (hi : i < 4 * (key.length / 4 + 7)) : w i = (expandWords key).getD i .zero := by
    rw [hw, col_roundKey_expandKey pos (by omega) (Nat.mod_lt i (by decide)), Nat.div_add_mod]
  refine ⟨expandKey_length key pos, fun i hi => ?_, fun i lo hi => ?_, ?_, fun h24 => ⟨?_, ?_⟩, fun h32 => ?_⟩
  · rw [word i (by omega), getD_expandWords_of_lt hi, Word.ofBytes_drop]
  · rw [word i hi, word (i - key.length / 4) (by omega), word (i - 1) (by omega)]
    exact expandWords_followsRecurrence pos i lo (by rw [expandWords_length key pos, roundsOf]; omega)
  · exact roundKey_expandKey_eq_ofBytes (k := 0) (by omega)
  · exact col_roundKey_expandKey_of_lt (k := 1) (c := 0) (by decide) (by omega)
  · exact col_roundKey_expandKey_of_lt (k := 1) (c := 1) (by decide) (by omega)
  · exact roundKey_expandKey_eq_ofBytes (k := 1) (by omega)

end Sys2Proof.Machine

namespace Sys2Proof

/-! ### Blocks, element by element -/

/-- Every block operation that works column by column takes column `c` to its image. -/
theorem Block.col_mapColumns (f : Word → Word) (s : Block) {c : Nat} (hc : c < 4) : (s.mapColumns f).col c = f (s.col c) := by
  interval_cases c <;> rfl

theorem Block.col_xor (a b : Block) {c : Nat} (hc : c < 4) : (a.xor b).col c = (a.col c).xor (b.col c) := by
  interval_cases c <;> rfl

theorem Word.get_map (f : Byte → Byte) (w : Word) {r : Nat} (hr : r < 4) : (w.map f).get r = f (w.get r) := by
  interval_cases r <;> rfl

theorem Word.get_xor (a b : Word) {r : Nat} (hr : r < 4) : (a.xor b).get r = a.get r ^^^ b.get r := by
  interval_cases r <;> rfl

/-- A map of the bytes acts on each byte lane alone. -/
theorem Block.get_mapColumns_map (f : Byte → Byte) (s : Block) {i : Nat} (hi : i < 16) :
    (s.mapColumns (Word.map f)).get i = f (s.get i) := by
  simp only [Block.get, Block.at]
  rw [Block.col_mapColumns _ _ (by omega), Word.get_map _ _ (by omega)]

theorem Block.get_xor (a b : Block) {i : Nat} (hi : i < 16) : (a.xor b).get i = a.get i ^^^ b.get i := by
  simp only [Block.get, Block.at]
  rw [Block.col_xor _ _ (by omega), Word.get_xor _ _ (by omega)]

/-- XOR with the same block twice cancels in each byte lane. -/
@[simp] theorem Block.xor_xor_cancel_right (a b : Block) : (a.xor b).xor b = a := by
  refine Block.ext_get fun i hi => ?_
  rw [Block.get_xor _ _ hi, Block.get_xor _ _ hi, BitVec.xor_assoc, BitVec.xor_self, BitVec.xor_zero]

/-- A column-by-column operation is undone by undoing it on each column. -/
theorem Block.mapColumns_leftInverse {f g : Word → Word} (h : Function.LeftInverse g f) :
    Function.LeftInverse (Block.mapColumns g) (Block.mapColumns f) :=
  fun s => Block.ext_col fun c hc => by rw [Block.col_mapColumns _ _ hc, Block.col_mapColumns _ _ hc, h]

theorem Word.map_leftInverse {f g : Byte → Byte} (h : Function.LeftInverse g f) :
    Function.LeftInverse (Word.map g) (Word.map f) :=
  fun w => by simp only [Word.map, h _]

end Sys2Proof

namespace Sys2Proof.Machine

/-! ### The block operations and their inverses -/

@[simp] theorem addRoundKey_addRoundKey (s k : Block) : addRoundKey (addRoundKey s k) k = s := Block.xor_xor_cancel_right s k

@[simp] theorem invSubBytes_subBytes (s : Block) : invSubBytes (subBytes s) = s :=
  Block.mapColumns_leftInverse (Word.map_leftInverse invSbox_sbox) s

@[simp] theorem subBytes_invSubBytes (s : Block) : subBytes (invSubBytes s) = s :=
  Block.mapColumns_leftInverse (Word.map_leftInverse sbox_invSbox) s

@[simp] theorem invShiftRows_shiftRows (s : Block) : invShiftRows (shiftRows s) = s := rfl

@[simp] theorem shiftRows_invShiftRows (s : Block) : shiftRows (invShiftRows s) = s := rfl

/-- Rotating rows moves bytes and so commutes with every map of the bytes. -/
theorem shiftRows_mapColumns_map (f : Byte → Byte) (s : Block) :
    shiftRows (s.mapColumns (Word.map f)) = (shiftRows s).mapColumns (Word.map f) := rfl

theorem invShiftRows_mapColumns_map (f : Byte → Byte) (s : Block) :
    invShiftRows (s.mapColumns (Word.map f)) = (invShiftRows s).mapColumns (Word.map f) := rfl

theorem at_shiftRows (s : Block) {r c : Nat} (hr : r < 4) (hc : c < 4) : (shiftRows s).at r c = s.at r ((c + r) % 4) := by
  interval_cases r <;> interval_cases c <;> rfl

theorem at_invShiftRows (s : Block) {r c : Nat} (hr : r < 4) (hc : c < 4) :
    (invShiftRows s).at r c = s.at r ((c + 4 - r) % 4) := by
  interval_cases r <;> interval_cases c <;> rfl

/-- Settles O30: each operation acts on a byte lane alone, by XOR or by a table; XOR undoes itself and the tables undo each other. -/
theorem byteWiseOperations : Obligations.ByteWiseOperations :=
  fun s k => ⟨fun _ hi => Block.get_xor s k hi, addRoundKey_addRoundKey s k, fun _ hi => Block.get_mapColumns_map sbox s hi,
    fun _ hi => Block.get_mapColumns_map invSbox s hi, invSubBytes_subBytes s, subBytes_invSubBytes s⟩

/-- Settles O31: the elements are read off position by position; a rotation of rows commutes with every map of the bytes. -/
theorem rowRotations : Obligations.RowRotations :=
  fun s => ⟨fun _ _ hr hc => at_shiftRows s hr hc, fun _ _ hr hc => at_invShiftRows s hr hc, invShiftRows_shiftRows s,
    shiftRows_invShiftRows s, shiftRows_mapColumns_map sbox s, invShiftRows_mapColumns_map invSbox s⟩

/-! ### Matrices over GF(2^8)

Applying two matrices in turn is applying their product, so M and MINV undo each other on every column because their products, two closed
computations, are the identity. -/

/-- The matrix whose rows are the columns of `m`. -/
def DiffusionMatrix.transpose (m : DiffusionMatrix) : DiffusionMatrix :=
  ⟨⟨m.r0.b0, m.r1.b0, m.r2.b0, m.r3.b0⟩, ⟨m.r0.b1, m.r1.b1, m.r2.b1, m.r3.b1⟩,
   ⟨m.r0.b2, m.r1.b2, m.r2.b2, m.r3.b2⟩, ⟨m.r0.b3, m.r1.b3, m.r2.b3, m.r3.b3⟩⟩

/-- The product of two matrices, row by row. -/
def DiffusionMatrix.mul (n m : DiffusionMatrix) : DiffusionMatrix :=
  ⟨m.transpose.apply n.r0, m.transpose.apply n.r1, m.transpose.apply n.r2, m.transpose.apply n.r3⟩

def DiffusionMatrix.identity : DiffusionMatrix :=
  ⟨⟨0x01, 0x00, 0x00, 0x00⟩, ⟨0x00, 0x01, 0x00, 0x00⟩, ⟨0x00, 0x00, 0x01, 0x00⟩, ⟨0x00, 0x00, 0x00, 0x01⟩⟩

@[simp] theorem DiffusionMatrix.identity_apply (w : Word) : identity.apply w = w := by
  simp [DiffusionMatrix.apply, identity, gfDot]

/-- A row's product with a matrix moves from one factor to the other: (row · m) · w = row · (m · w). -/
theorem gfDot_apply (m : DiffusionMatrix) (row w : Word) : gfDot row (m.apply w) = gfDot (m.transpose.apply row) w := by
  have regroup (r x y : Byte) : gfMultiply (gfMultiply x r) y = gfMultiply r (gfMultiply x y) := by
    rw [gfMultiply_comm x r, gfMultiply_assoc]
  simp only [gfDot, DiffusionMatrix.apply, DiffusionMatrix.transpose, gfMultiply_xor_left, gfMultiply_xor_right, regroup]
  ac_rfl

/-- Applying the product of two matrices is applying one after the other. -/
theorem DiffusionMatrix.mul_apply (n m : DiffusionMatrix) (w : Word) : (n.mul m).apply w = n.apply (m.apply w) := by
  have rows : n.apply (m.apply w) =
    ⟨gfDot n.r0 (m.apply w), gfDot n.r1 (m.apply w), gfDot n.r2 (m.apply w), gfDot n.r3 (m.apply w)⟩ := rfl
  rw [rows, gfDot_apply, gfDot_apply, gfDot_apply, gfDot_apply]
  rfl

theorem DiffusionMatrix.leftInverse_of_mul_eq_identity {n m : DiffusionMatrix} (h : n.mul m = identity) :
    Function.LeftInverse n.apply m.apply :=
  fun w => by rw [← DiffusionMatrix.mul_apply, h, DiffusionMatrix.identity_apply]

theorem matrixMinv_mul_matrixM : matrixMinv.mul matrixM = .identity := by decide +kernel

theorem matrixM_mul_matrixMinv : matrixM.mul matrixMinv = .identity := by decide +kernel

/-! ### The column mixes -/

@[simp] theorem invMixColumns_mixColumns (s : Block) : invMixColumns (mixColumns s) = s :=
  Block.mapColumns_leftInverse (DiffusionMatrix.leftInverse_of_mul_eq_identity matrixMinv_mul_matrixM) s

@[simp] theorem mixColumns_invMixColumns (s : Block) : mixColumns (invMixColumns s) = s :=
  Block.mapColumns_leftInverse (DiffusionMatrix.leftInverse_of_mul_eq_identity matrixM_mul_matrixMinv) s

theorem two_gfMultiply (a : Byte) : gfMultiply 0x02#8 a = xtime a := (gfMultiply_comm _ a).trans (gfMultiply_two a)

theorem three_gfMultiply (a : Byte) : gfMultiply 0x03#8 a = xtime a ^^^ a := by
  have sum : 0x03#8 = 0x02#8 ^^^ 0x01#8 := rfl
  rw [sum, gfMultiply_xor_left, two_gfMultiply, one_gfMultiply]

/-- M's product with a column, written out with `xtime` (R123, R164). -/
theorem matrixM_apply (w : Word) : matrixM.apply w =
    ⟨xtime w.b0 ^^^ (xtime w.b1 ^^^ w.b1) ^^^ w.b2 ^^^ w.b3, w.b0 ^^^ xtime w.b1 ^^^ (xtime w.b2 ^^^ w.b2) ^^^ w.b3,
     w.b0 ^^^ w.b1 ^^^ xtime w.b2 ^^^ (xtime w.b3 ^^^ w.b3), (xtime w.b0 ^^^ w.b0) ^^^ w.b1 ^^^ w.b2 ^^^ xtime w.b3⟩ := by
  simp [DiffusionMatrix.apply, matrixM, gfDot, two_gfMultiply, three_gfMultiply]

/-- A row's product with a column of four equal bytes is that byte times the sum of the row's entries. -/
theorem gfDot_equalBytes (row : Word) (a : Byte) :
    gfDot row ⟨a, a, a, a⟩ = gfMultiply (row.b0 ^^^ row.b1 ^^^ row.b2 ^^^ row.b3) a := by
  simp only [gfDot, gfMultiply_xor_left]

/-- The entries of each row of M sum to 0x01, so a column of four equal bytes stays as it is (R164). -/
theorem matrixM_apply_equalBytes (a : Byte) : matrixM.apply ⟨a, a, a, a⟩ = ⟨a, a, a, a⟩ := by
  simp [DiffusionMatrix.apply, matrixM, gfDot_equalBytes]

/-- Settles O32: each column of a mix is a matrix's product with it; M and MINV are inverse matrices. -/
theorem columnMixes : Obligations.ColumnMixes := by
  intro s
  refine ⟨fun c hc => ?_, fun c hc => ?_, invMixColumns_mixColumns s, mixColumns_invMixColumns s, fun c a hc equal => ?_⟩
  · have column : (mixColumns s).col c = _ := (Block.col_mapColumns _ s hc).trans (matrixM_apply _)
    simp only [Block.at, column]
    exact ⟨rfl, rfl, rfl, rfl⟩
  · have column : (invMixColumns s).col c = _ := Block.col_mapColumns _ s hc
    simp only [Block.at, column]
    exact ⟨rfl, rfl, rfl, rfl⟩
  · calc (mixColumns s).col c = matrixM.apply (s.col c) := Block.col_mapColumns _ s hc
      _ = ⟨a, a, a, a⟩ := by rw [equal, matrixM_apply_equalBytes]

/-! ### The rounds -/

/-- The forward rounds are a loop over the round index (R168). -/
theorem afterRounds_eq_foldl (rk : List Block) (block : Block) (r : Nat) :
    afterRounds rk block r = (List.range' 1 r).foldl (mainRound rk) (addRoundKey block (roundKey rk 0)) := by
  induction r with
  | zero => rfl
  | succ r ih => rw [afterRounds, ih, List.range'_1_concat, List.foldl_concat, Nat.add_comm]

/-- Undoing the rounds is the loop over the round index in falling order (R169). -/
theorem undoRounds_eq_foldl (rk : List Block) (r : Nat) (s : Block) :
    undoRounds rk r s = addRoundKey ((List.range' 1 r).reverse.foldl (invMainRound rk) s) (roundKey rk 0) := by
  induction r generalizing s with
  | zero => rfl
  | succ r ih => rw [undoRounds, ih, List.range'_1_concat, List.reverse_concat, List.foldl_cons, Nat.add_comm]

theorem lastRound_of_length {rk : List Block} {R : Nat} (h : rk.length = R + 1) : lastRound rk = R := by
  rw [lastRound, h, Nat.add_sub_cancel]

/-- Settles O33: the final round after the forward rounds as a loop. -/
theorem encryptBlockIsTheRoundLoop : Obligations.EncryptBlockIsTheRoundLoop := by
  intro block rk R length _
  rw [encryptBlock, afterRounds_eq_foldl, finalRound, lastRound_of_length length]
  rfl

/-- Settles O34: the final round undone, then the rounds undone as a loop in falling order. -/
theorem decryptBlockIsTheReversedLoop : Obligations.DecryptBlockIsTheReversedLoop := by
  intro block rk R length _
  rw [decryptBlock, undoRounds_eq_foldl, invFinalRound, lastRound_of_length length]
  rfl

/-! ### The round trip -/

@[simp] theorem invMainRound_mainRound (rk : List Block) (s : Block) (k : Nat) : invMainRound rk (mainRound rk s k) k = s := by
  simp only [invMainRound, mainRound, addRoundKey_addRoundKey, invMixColumns_mixColumns, invShiftRows_shiftRows, invSubBytes_subBytes]

@[simp] theorem mainRound_invMainRound (rk : List Block) (s : Block) (k : Nat) : mainRound rk (invMainRound rk s k) k = s := by
  simp only [invMainRound, mainRound, subBytes_invSubBytes, shiftRows_invShiftRows, mixColumns_invMixColumns, addRoundKey_addRoundKey]

@[simp] theorem invFinalRound_finalRound (rk : List Block) (s : Block) : invFinalRound rk (finalRound rk s) = s := by
  simp only [invFinalRound, finalRound, addRoundKey_addRoundKey, invShiftRows_shiftRows, invSubBytes_subBytes]

@[simp] theorem finalRound_invFinalRound (rk : List Block) (s : Block) : finalRound rk (invFinalRound rk s) = s := by
  simp only [invFinalRound, finalRound, subBytes_invSubBytes, shiftRows_invShiftRows, addRoundKey_addRoundKey]

/-- Undoing peels off the round that was done last. -/
@[simp] theorem undoRounds_afterRounds (rk : List Block) (block : Block) (r : Nat) :
    undoRounds rk r (afterRounds rk block r) = block := by
  induction r with
  | zero => exact addRoundKey_addRoundKey _ _
  | succ r ih => rw [afterRounds, undoRounds, invMainRound_mainRound, ih]

@[simp] theorem afterRounds_undoRounds (rk : List Block) (r : Nat) (s : Block) :
    afterRounds rk (undoRounds rk r s) r = s := by
  induction r generalizing s with
  | zero => exact addRoundKey_addRoundKey _ _
  | succ r ih => rw [undoRounds, afterRounds, ih, mainRound_invMainRound]

@[simp] theorem decryptBlock_encryptBlock (b : Block) (rk : List Block) : decryptBlock (encryptBlock b rk) rk = b := by
  rw [decryptBlock, encryptBlock, invFinalRound_finalRound, undoRounds_afterRounds]

@[simp] theorem encryptBlock_decryptBlock (b : Block) (rk : List Block) : encryptBlock (decryptBlock b rk) rk = b := by
  rw [decryptBlock, encryptBlock, afterRounds_undoRounds, finalRound_invFinalRound]

/-- Settles O35: each round undoes its counterpart, and by induction so do the loops over the rounds. -/
theorem blockRoundTrip : Obligations.BlockRoundTrip :=
  fun rk b => ⟨decryptBlock_encryptBlock b rk, encryptBlock_decryptBlock b rk⟩

end Sys2Proof.Machine

namespace Sys2Proof.Machine

/-! ### Padding -/

/-- Padding fills the last block, so that the length is a whole number of blocks, at least one (R190). -/
theorem pad_length_blocks (m : List Byte) : 0 < (pad m).length ∧ (pad m).length % 16 = 0 := by
  have bounds := padLength_bounds m.length
  have length := pad_length m
  omega

theorem pad_of_whole_blocks {m : List Byte} (whole : m.length % 16 = 0) : pad m = m ++ List.replicate 16 0x10#8 := by
  simp only [pad, padLength, whole, Nat.sub_zero]

theorem getD_pad_of_length_le {m : List Byte} {j : Nat} (lo : m.length ≤ j) (hi : j < m.length + padLength m.length) :
    (pad m).getD j 0x00#8 = BitVec.ofNat 8 (padLength m.length) := by
  rw [pad, List.getD_append_right _ _ _ _ lo, List.getD_replicate _ (by omega)]

/-- Settles O43: the laws of `pad`, with N = `padLength` of the message's length. -/
theorem paddingAddsItsOwnLength : Obligations.PaddingAddsItsOwnLength := by
  intro m
  obtain ⟨low, high, -⟩ := padLength_bounds m.length
  obtain ⟨positive, whole⟩ := pad_length_blocks m
  exact ⟨padLength m.length, rfl, low, high, pad_length m, whole, positive, List.take_left,
    fun _ => getD_pad_of_length_le, pad_of_whole_blocks⟩

/-! ### Unpadding -/

/-- Unpadding removes N bytes of value N, 1 ≤ N ≤ 16 (R191). -/
theorem unpad_append_replicate (m : List Byte) {n : Nat} (low : 1 ≤ n) (high : n ≤ 16) :
    unpad (m ++ List.replicate n (BitVec.ofNat 8 n)) = .ok m := by
  have length : (m ++ List.replicate n (BitVec.ofNat 8 n)).length = m.length + n := by simp
  have last : (m ++ List.replicate n (BitVec.ofNat 8 n)).getD (m.length + n - 1) 0x00#8 = BitVec.ofNat 8 n := by
    rw [List.getD_append_right _ _ _ _ (by omega), List.getD_replicate _ (by omega)]
  have value : (BitVec.ofNat 8 n).toNat = n := Nat.mod_eq_of_lt (by omega)
  simp only [unpad, length, last, value, Nat.add_sub_cancel, List.drop_left, List.take_left]
  rw [if_neg (by omega), if_pos (by simp)]

/-- What unpads ends in its padding. The sequence must reach back over the sixteen bytes that the padding can have. -/
theorem exists_padding_of_unpad_eq_ok {p m : List Byte} (long : 16 ≤ p.length) (h : unpad p = .ok m) :
    ∃ n, 1 ≤ n ∧ n ≤ 16 ∧ p = m ++ List.replicate n (BitVec.ofNat 8 n) := by
  simp only [unpad] at h
  generalize p.getD (p.length - 1) 0x00#8 = last at h
  split_ifs at h with bad equal
  obtain rfl := Except.ok.inj h
  have padding : p.drop (p.length - last.toNat) = List.replicate last.toNat last := by
    refine List.eq_replicate_iff.mpr ⟨?_, by simpa using equal⟩
    rw [List.length_drop]
    omega
  refine ⟨last.toNat, by omega, by omega, ?_⟩
  rw [BitVec.ofNat_toNat, BitVec.setWidth_eq, ← padding, List.take_append_drop]

theorem unpad_eq_ok_iff {p m : List Byte} (long : 16 ≤ p.length) :
    unpad p = .ok m ↔ ∃ n, 1 ≤ n ∧ n ≤ 16 ∧ p = m ++ List.replicate n (BitVec.ofNat 8 n) := by
  refine ⟨exists_padding_of_unpad_eq_ok long, ?_⟩
  rintro ⟨n, low, high, rfl⟩
  exact unpad_append_replicate m low high

/-- Unpadding has no error but InvalidPadding. -/
theorem unpad_ok_or_invalidPadding (p : List Byte) : (∃ m, unpad p = .ok m) ∨ unpad p = .error .invalidPadding := by
  simp only [unpad]
  split_ifs
  · exact .inr rfl
  · exact .inl ⟨_, rfl⟩
  · exact .inr rfl

@[simp] theorem unpad_pad (m : List Byte) : unpad (pad m) = .ok m :=
  unpad_append_replicate m (padLength_bounds m.length).1 (padLength_bounds m.length).2.1

/-- Settles O44: a sequence of a positive whole number of blocks has the sixteen bytes that `unpad_eq_ok_iff` asks for. -/
theorem unpadAcceptsExactlyValidPadding : Obligations.UnpadAcceptsExactlyValidPadding :=
  ⟨fun _ _ positive whole => unpad_eq_ok_iff (by omega),
    fun p _ _ never => (unpad_ok_or_invalidPadding p).resolve_left fun ⟨m, ok⟩ => never m ok,
    unpad_pad⟩

/-! ### The chaining loops -/

/-- R192, block by block: the chain value of block `k` is entry `k` of the ciphertext with the IV before it. -/
theorem getD_cbcEncrypt (rk : List Block) (iv : Block) {ps : List Block} {k : Nat} (hk : k < ps.length) :
    (cbcEncrypt rk iv ps).getD k .zero =
      encryptBlock ((ps.getD k .zero).xor ((iv :: cbcEncrypt rk iv ps).getD k .zero)) rk := by
  induction ps generalizing iv k with
  | nil => exact absurd hk (Nat.not_lt_zero k)
  | cons p ps ih =>
    cases k with
    | zero => rfl
    | succ k => exact ih _ (Nat.lt_of_succ_lt_succ hk)

/-- R193, block by block: the chain value of block `k` is entry `k` of the ciphertext with the IV before it. -/
theorem getD_cbcDecrypt (rk : List Block) (iv : Block) {cs : List Block} {k : Nat} (hk : k < cs.length) :
    (cbcDecrypt rk iv cs).getD k .zero = (decryptBlock (cs.getD k .zero) rk).xor ((iv :: cs).getD k .zero) := by
  induction cs generalizing iv k with
  | nil => exact absurd hk (Nat.not_lt_zero k)
  | cons c cs ih =>
    cases k with
    | zero => rfl
    | succ k => exact ih _ (Nat.lt_of_succ_lt_succ hk)

/-! ### The message functions -/

theorem encryptMessage_of_invalid_key {m key : List Byte} {iv : Block} (invalid : keyLengthValid key.length = false) :
    encryptMessage m key iv = .error .invalidKeyLength := by
  simp only [encryptMessage, invalid, Bool.false_eq_true, if_false]

theorem encryptMessage_of_valid_key {m key : List Byte} {iv : Block} (valid : keyLengthValid key.length = true) :
    encryptMessage m key iv = .ok (bytesOf (cbcEncrypt (expandKey key) iv (blocksOf ((pad m).length / 16) (pad m)))) :=
  if_pos valid

theorem decryptMessage_of_invalid_key {c key : List Byte} {iv : Block} (invalid : keyLengthValid key.length = false) :
    decryptMessage c key iv = .error .invalidKeyLength := by
  simp only [decryptMessage, invalid, Bool.false_eq_true, if_false]

theorem decryptMessage_of_invalid_length {c key : List Byte} {iv : Block} (valid : keyLengthValid key.length = true)
    (invalid : c.length = 0 ∨ c.length % 16 ≠ 0) : decryptMessage c key iv = .error .invalidCiphertextLength :=
  (if_pos valid).trans (if_pos invalid)

theorem decryptMessage_of_valid {c key : List Byte} {iv : Block} (valid : keyLengthValid key.length = true)
    (nonempty : c.length ≠ 0) (whole : c.length % 16 = 0) :
    decryptMessage c key iv = unpad (bytesOf (cbcDecrypt (expandKey key) iv (blocksOf (c.length / 16) c))) :=
  (if_pos valid).trans (if_neg fun invalid => invalid.elim nonempty fun partly => partly whole)

/-- Settles O45: `getD_cbcEncrypt` at block 0 and at block `k + 1`, with the sequences' blocks as the loop's entries. -/
theorem cbcEncryptionChainsTheBlocks : Obligations.CbcEncryptionChainsTheBlocks := by
  rintro m key iv C P rk rfl
  obtain ⟨positive, whole⟩ := pad_length_blocks m
  refine ⟨encryptMessage_of_invalid_key, fun valid => ⟨_, encryptMessage_of_valid_key valid, ?_, fun hC hP => ?_⟩⟩
  · rw [bytesOf_length, cbcEncrypt_length, blocksOf_length]
    omega
  · generalize hps : blocksOf ((pad m).length / 16) (pad m) = ps at hC ⊢
    have length : ps.length = (pad m).length / 16 := by rw [← hps, blocksOf_length]
    have cipher : ∀ k < ps.length, C k = (cbcEncrypt (expandKey key) iv ps).getD k .zero := fun k hk => by
      rw [hC, ofBytes_drop_bytesOf _ _ (by simpa using hk)]
    have plain : ∀ k < ps.length, P k = ps.getD k .zero := fun k hk => by
      rw [hP, ← hps, getD_blocksOf _ _ _ (by omega)]
    refine ⟨?_, fun k within => ?_⟩
    · rw [cipher 0 (by omega), plain 0 (by omega), getD_cbcEncrypt _ _ (by omega), List.getD_cons_zero]
    · rw [bytesOf_length, cbcEncrypt_length] at within
      rw [cipher (k + 1) (by omega), cipher k (by omega), plain (k + 1) (by omega), getD_cbcEncrypt _ _ (by omega), List.getD_cons_succ]

/-- Settles O46: `getD_cbcDecrypt` at block 0 and at block `k + 1`, with the sequences' blocks as the loop's entries. -/
theorem cbcDecryptionChainsTheBlocks : Obligations.CbcDecryptionChainsTheBlocks := by
  rintro c key iv C P rk rfl
  refine ⟨decryptMessage_of_invalid_key, decryptMessage_of_invalid_length, fun valid nonempty whole =>
    ⟨_, decryptMessage_of_valid valid nonempty whole, ?_, fun hC hP => ?_⟩⟩
  · rw [bytesOf_length, cbcDecrypt_length, blocksOf_length]
    omega
  · generalize hcs : blocksOf (c.length / 16) c = cs at hP
    have length : cs.length = c.length / 16 := by rw [← hcs, blocksOf_length]
    have cipher : ∀ k < cs.length, C k = cs.getD k .zero := fun k hk => by
      rw [hC, ← hcs, getD_blocksOf _ _ _ (by omega)]
    have plain : ∀ k < cs.length, P k = (cbcDecrypt (expandKey key) iv cs).getD k .zero := fun k hk => by
      rw [hP, ofBytes_drop_bytesOf _ _ (by simpa using hk)]
    refine ⟨?_, fun k within => ?_⟩
    · rw [plain 0 (by omega), cipher 0 (by omega), getD_cbcDecrypt _ _ (by omega), List.getD_cons_zero]
    · rw [plain (k + 1) (by omega), cipher (k + 1) (by omega), cipher k (by omega), getD_cbcDecrypt _ _ (by omega), List.getD_cons_succ]

end Sys2Proof.Machine

namespace Sys2Proof.Machine

/-! ### Which error a command reports -/

/-- ERR after a block command: the length of the input, then the schedule (R171, R172, in R223's order). -/
theorem blockCommand_err (f : Block → List Block → Block) (s : State) :
    (blockCommand f s).err =
      if s.ilen.toNat ≠ 16 then 0x02#8 else if s.kvalid = false then 0x81#8 else 0x00#8 := by
  obtain ⟨length, ends⟩ | ⟨length, unloaded, ends⟩ | ⟨length, loaded, ends⟩ := blockCommand_cases f s
  · have bad : s.ilen.toNat ≠ 16 := by bv_omega
    rw [ends, if_pos bad]
    rfl
  · simp [ends, length, unloaded, ErrorKind.code]
  · simp [ends, length, loaded]

/-- ERR after a message command: the message's bound, then the key length, then what its body leaves on a loaded schedule (R194, R195, in
R223's order). -/
theorem messageCommand_err {body : State → Except ErrorKind (List Byte)} {s : State} {code : Byte}
    (body_err : keyLengthValid s.keylen.toNat = true → (s.storeSchedule.finish (body s.storeSchedule)).err = code) :
    (messageCommand body s).err =
      if s.msgMax < s.ilen.toNat then 0x82#8 else if keyLengthValid s.keylen.toNat = false then 0x01#8 else code := by
  obtain ⟨long, ends⟩ | ⟨fits, invalid, ends⟩ | ⟨fits, valid, ends⟩ := messageCommand_cases body s
  · rw [ends, if_pos long]
    rfl
  · rw [ends, if_neg (Nat.not_lt.mpr fits), if_pos invalid]
    rfl
  · rw [ends, if_neg (Nat.not_lt.mpr fits), if_neg (by simp [valid]), body_err valid]

/-- A valid key and a ciphertext of whole blocks leave decryption one error, InvalidPadding. -/
theorem decryptMessage_ok_or_invalidPadding {c key : List Byte} {iv : Block} (valid : keyLengthValid key.length = true)
    (nonempty : c.length ≠ 0) (whole : c.length % 16 = 0) :
    (∃ m, decryptMessage c key iv = .ok m) ∨ decryptMessage c key iv = .error .invalidPadding := by
  rw [decryptMessage_of_valid valid nonempty whole]
  exact unpad_ok_or_invalidPadding _

/-- ENCMSG's body cannot fail once its key has loaded. -/
theorem finish_encryptMessage_err (s u : State) (valid : keyLengthValid s.keylen.toNat = true) :
    (u.finish (encryptMessage s.message s.keyBytes s.ivBlock)).err = 0x00#8 := by
  rw [encryptMessage_of_valid_key ((State.keyBytes_length_of_valid valid).symm ▸ valid)]
  rfl

theorem decmsgBody_of_invalid_length {s : State} (invalid : s.ilen.toNat = 0 ∨ s.ilen.toNat % 16 ≠ 0) :
    decmsgBody s = .error .invalidCiphertextLength :=
  if_pos (invalid.imp_left fun empty => BitVec.eq_of_toNat_eq empty)

theorem decmsgBody_of_whole_blocks {s : State} (nonempty : s.ilen.toNat ≠ 0) (whole : s.ilen.toNat % 16 = 0) :
    decmsgBody s = decryptMessage s.message s.keyBytes s.ivBlock :=
  if_neg fun invalid => invalid.elim (fun empty => nonempty (congrArg BitVec.toNat empty)) fun partly => partly whole

/-- ERR as DECMSG's body decides it once its key has loaded: the ciphertext's length, then its padding (R195, in R223's order). -/
theorem finish_decmsgBody_err (s u : State) (valid : keyLengthValid s.keylen.toNat = true) :
    (u.finish (decmsgBody s)).err =
      if s.ilen.toNat = 0 ∨ s.ilen.toNat % 16 ≠ 0 then 0x03#8
      else if decryptMessage s.message s.keyBytes s.ivBlock = .error .invalidPadding then 0x04#8
      else 0x00#8 := by
  by_cases length : s.ilen.toNat = 0 ∨ s.ilen.toNat % 16 ≠ 0
  · rw [decmsgBody_of_invalid_length length, if_pos length]
    rfl
  · obtain ⟨nonempty, whole⟩ : s.ilen.toNat ≠ 0 ∧ s.ilen.toNat % 16 = 0 := by omega
    rw [decmsgBody_of_whole_blocks nonempty whole, if_neg length]
    have key_valid : keyLengthValid s.keyBytes.length = true := (State.keyBytes_length_of_valid valid).symm ▸ valid
    obtain ⟨m, ok⟩ | padding := decryptMessage_ok_or_invalidPadding (c := s.message) (iv := s.ivBlock) key_valid
      (by rwa [State.message_length]) (by rwa [State.message_length])
    · rw [ok, if_neg (by simp)]
      rfl
    · rw [padding, if_pos rfl]
      rfl

/-- Settles O52: an illegal opcode has its one error, EXPANDKEY ends by its key length, and the block and message commands by
`blockCommand_err` and `messageCommand_err`, whose last branch is the body's own order. -/
theorem errorsAreReportedInPriorityOrder : Obligations.ErrorsAreReportedInPriorityOrder := by
  intro s
  refine ⟨fun op illegal => ⟨_, runCommand_illegal illegal s, rfl⟩, ?expandkey, fun i block => ?block,
    ⟨_, exec_encmsg s, messageCommand_err (finish_encryptMessage_err s.storeSchedule _)⟩,
    ⟨_, exec_decmsg s, messageCommand_err (finish_decmsgBody_err s.storeSchedule _)⟩⟩
  case expandkey =>
    cases valid : keyLengthValid s.keylen.toNat
    · exact ⟨_, exec_expandkey_invalid valid, rfl⟩
    · exact ⟨_, exec_expandkey_valid valid, rfl⟩
  case block =>
    obtain rfl | rfl := block
    · exact ⟨_, exec_encblk s, blockCommand_err _ s⟩
    · exact ⟨_, exec_decblk s, blockCommand_err _ s⟩

end Sys2Proof.Machine

namespace Sys2Proof.Machine

/-! ### The other multiplication, and the unique inverse -/

/-- The one-pass loop adds in what it collects and in the factor it doubles. -/
theorem shiftAndAdd_xor_left (n : Nat) (p q a a' b : Byte) :
    shiftAndAdd n (p ^^^ q) (a ^^^ a') b = shiftAndAdd n p a b ^^^ shiftAndAdd n q a' b := by
  induction n generalizing p q a a' b with
  | zero => rfl
  | succ n ih => simp only [shiftAndAdd, xtime_xor, ← ite_xor_add_term, ih]

/-- It adds in what it collects and in the factor whose bits it tests. -/
theorem shiftAndAdd_xor_right (n : Nat) (p q a b b' : Byte) :
    shiftAndAdd n (p ^^^ q) a (b ^^^ b') = shiftAndAdd n p a b ^^^ shiftAndAdd n q a b' := by
  induction n generalizing p q a b b' with
  | zero => rfl
  | succ n ih => simp only [shiftAndAdd, BitVec.getLsbD_xor, ← ite_xor_add_cond, BitVec.ushiftRight_xor_distrib, ih]

theorem gfMultiplyOnePass_addsInEach : AddsInEach gfMultiplyOnePass where
  left := shiftAndAdd_xor_left 8 0x00#8 0x00#8
  right := shiftAndAdd_xor_right 8 0x00#8 0x00#8

/-- Both forms add in each operand, so they are compared on the powers of x alone. -/
theorem gfMultiply_eq_onePass (a b : Byte) : gfMultiply a b = gfMultiplyOnePass a b :=
  gfMultiply_addsInEach.eq_of_bits gfMultiplyOnePass_addsInEach (by decide +kernel) a b

/-- Settles O19: the two forms agree, and the corner cases are laws of multiplication. -/
theorem multiplicationFormsAgree : Obligations.MultiplicationFormsAgree :=
  ⟨gfMultiply_eq_onePass, fun a => ⟨gfMultiply_zero a, zero_gfMultiply a, gfMultiply_one a, one_gfMultiply a⟩, by decide +kernel⟩

theorem gfMultiply_gfInverse {a : Byte} (ha : a ≠ 0x00#8) : gfMultiply a (gfInverse a) = 0x01#8 := by
  rw [← tableEntry_inverse_eq_gfInverse, gfMultiply_tableEntry_inverse a ha]

@[simp] theorem gfInverse_zero : gfInverse 0x00#8 = 0x00#8 := by decide +kernel

/-- An inverse is unique, as its factor cancels (R105). -/
theorem gfMultiply_eq_one_iff {a x : Byte} (ha : a ≠ 0x00#8) : gfMultiply a x = 0x01#8 ↔ x = gfInverse a := by
  constructor
  · intro product
    calc x = gfMultiply (gfMultiply a (gfInverse a)) x := by rw [gfMultiply_gfInverse ha, one_gfMultiply]
      _ = gfMultiply (gfInverse a) (gfMultiply a x) := by rw [gfMultiply_comm a, gfMultiply_assoc]
      _ = gfInverse a := by rw [product, gfMultiply_one]
  · rintro rfl
    exact gfMultiply_gfInverse ha

theorem gfInverse_gfInverse (a : Byte) : gfInverse (gfInverse a) = a := by
  by_cases ha : a = 0x00#8
  · rw [ha, gfInverse_zero, gfInverse_zero]
  · have nonzero : gfInverse a ≠ 0x00#8 := by
      rw [← tableEntry_inverse_eq_gfInverse]
      exact tableEntry_inverse_ne_zero ha
    exact ((gfMultiply_eq_one_iff nonzero).mp ((gfMultiply_comm _ _).trans (gfMultiply_gfInverse ha))).symm

/-- Settles O22: by cancellation in the field's multiplication; the two entries run the model. -/
theorem inverseIsTheUniqueInverse : Obligations.InverseIsTheUniqueInverse :=
  ⟨gfInverse_zero, fun _ _ => gfMultiply_eq_one_iff, gfInverse_gfInverse, by decide +kernel, by decide +kernel⟩

end Sys2Proof.Machine

namespace Sys2Proof.Machine

/-! ### The message round trip -/

/-- Decryption takes each block's chain value off again: it is the same ciphertext block that encryption put on. -/
@[simp] theorem cbcDecrypt_cbcEncrypt (rk : List Block) (iv : Block) (ps : List Block) : cbcDecrypt rk iv (cbcEncrypt rk iv ps) = ps := by
  induction ps generalizing iv with
  | nil => rfl
  | cons p ps ih => rw [cbcEncrypt, cbcDecrypt, decryptBlock_encryptBlock, Block.xor_xor_cancel_right, ih]

theorem blocksOf_length_div_bytesOf (bs : List Block) : blocksOf ((bytesOf bs).length / 16) (bytesOf bs) = bs := by
  rw [bytesOf_length, Nat.mul_div_cancel_left _ (by decide), blocksOf_bytesOf]

theorem bytesOf_blocksOf_pad (m : List Byte) : bytesOf (blocksOf ((pad m).length / 16) (pad m)) = pad m := by
  have blocks := pad_length_blocks m
  exact bytesOf_blocksOf _ _ (by omega)

theorem decryptMessage_encryptMessage {m key out : List Byte} {iv : Block} (valid : keyLengthValid key.length = true)
    (encrypted : encryptMessage m key iv = .ok out) : decryptMessage out key iv = .ok m := by
  rw [encryptMessage_of_valid_key valid] at encrypted
  obtain rfl := Except.ok.inj encrypted
  have blocks := pad_length_blocks m
  have length : (bytesOf (cbcEncrypt (expandKey key) iv (blocksOf ((pad m).length / 16) (pad m)))).length = (pad m).length := by
    rw [bytesOf_length, cbcEncrypt_length, blocksOf_length]
    omega
  rw [decryptMessage_of_valid valid (by omega) (by omega), blocksOf_length_div_bytesOf, cbcDecrypt_cbcEncrypt, bytesOf_blocksOf_pad,
    unpad_pad]

/-- Settles O47: a valid key always encrypts; decryption splits the output into the blocks of the chaining loop, undoes the loop and unpads. -/
theorem messageRoundTrip : Obligations.MessageRoundTrip := by
  intro m key iv valid
  obtain ⟨out, encrypted, -⟩ := encryptMessage_ok m key iv valid
  exact ⟨out, encrypted, decryptMessage_encryptMessage valid encrypted⟩

end Sys2Proof.Machine

namespace Sys2Proof.Machine

/-! ### A command on a loaded schedule -/

theorem le_of_msgMaxLegal {m : Nat} (legal : msgMaxLegal m = true) : m ≤ 0x0FFFFFF0 := ((msgMaxLegal_iff m).mp legal).2

section
variable {s : State} (valid : keyLengthValid s.keylen.toNat = true)
include valid

theorem State.keyBytes_valid : keyLengthValid s.keyBytes.length = true :=
  (State.keyBytes_length_of_valid valid).symm ▸ valid

theorem State.storeSchedule_holdsSchedule : s.storeSchedule.HoldsSchedule s.keyBytes :=
  ⟨State.keyBytes_valid valid, by rw [State.keyBytes_length_of_valid valid, State.storeSchedule_rounds], s.storeSchedule_rk⟩

/-- However the command ends, the schedule that it has loaded stays, and so do the inputs and the reserved bits of STATUS. -/
theorem State.storeSchedule_finish_frame (r : Except ErrorKind (List Byte)) :
    (s.storeSchedule.finish r).kvalid = true ∧ (s.storeSchedule.finish r).HoldsSchedule s.keyBytes ∧
      SameInputs s (s.storeSchedule.finish r) ∧ (s.storeSchedule.finish r).status &&& 0xFC#8 = s.status &&& 0xFC#8 := by
  have holds := State.storeSchedule_holdsSchedule valid
  have reserved : s.storeSchedule.status &&& 0xFC#8 = s.status &&& 0xFC#8 := withKvalid_reserved _ _
  cases r with
  | ok out =>
    exact ⟨(State.complete_kvalid out _).trans s.storeSchedule_kvalid, holds,
      s.storeSchedule_sameInputs.trans (State.complete_sameInputs out _), (withErrf_reserved _ _).trans reserved⟩
  | error e =>
    exact ⟨(State.fail_kvalid e _).trans s.storeSchedule_kvalid, holds,
      s.storeSchedule_sameInputs.trans (State.fail_sameInputs e _), (withErrf_reserved _ _).trans reserved⟩

theorem messageCommand_of_valid (body : State → Except ErrorKind (List Byte)) (fits : s.ilen.toNat ≤ s.msgMax) :
    messageCommand body s = s.storeSchedule.finish (body s.storeSchedule) := by
  obtain ⟨long, -⟩ | ⟨-, invalid, -⟩ | ⟨-, -, ends⟩ := messageCommand_cases body s
  · omega
  · exact absurd (invalid.symm.trans valid) Bool.false_ne_true
  · exact ends

theorem exec_encmsg_of_valid (fits : s.ilen.toNat ≤ s.msgMax) :
    ∃ out, encryptMessage s.message s.keyBytes s.ivBlock = .ok out ∧ out.length = s.ilen.toNat + padLength s.ilen.toNat ∧
      exec .encmsg s = .next (s.storeSchedule.complete out) := by
  obtain ⟨out, encrypted, length⟩ := encryptMessage_ok s.message s.keyBytes s.ivBlock (State.keyBytes_valid valid)
  rw [State.message_length] at length
  refine ⟨out, encrypted, length, ?_⟩
  rw [exec_encmsg, messageCommand_of_valid valid _ fits]
  simp only [State.storeSchedule_message, State.storeSchedule_keyBytes, State.storeSchedule_ivBlock, encrypted]
  rfl

theorem exec_decmsg_of_valid (fits : s.ilen.toNat ≤ s.msgMax) {r : Except ErrorKind (List Byte)} (body : decmsgBody s = r) :
    exec .decmsg s = .next (s.storeSchedule.finish r) := by
  subst body
  exact congrArg Host.Outcome.next (messageCommand_of_valid valid decmsgBody fits)

end

theorem State.message_eq_of_read {s : State} {m : List Byte} (length : s.ilen.toNat = m.length)
    (bytes : ∀ j, j < m.length → s.ibuf.read j = m.getD j 0x00#8) : s.message = m := by
  rw [State.message, length, Memory.readBytes_eq bytes]

theorem State.getD_message (s : State) {j : Nat} (h : j < s.ilen.toNat) : s.message.getD j 0x00#8 = s.ibuf.read j := by
  rw [State.message, Memory.getD_readBytes _ _ _ _ h, Nat.zero_add]

/-- Settles O50: ENCMSG's result, read back from IBUF, is what DECMSG decrypts, under the same key and IV, so `decryptMessage_encryptMessage`
gives the message. -/
theorem decmsgUndoesEncmsgInRegisters : Obligations.DecmsgUndoesEncmsgInRegisters := by
  intro s legal fits valid room
  obtain ⟨out, encrypted, length, encmsg⟩ := exec_encmsg_of_valid valid fits
  have most := le_of_msgMaxLegal legal
  have pad_bounds := padLength_bounds s.ilen.toNat
  have out_fits : out.length ≤ s.msgMax := by
    unfold padLength at length
    omega
  obtain ⟨-, -, olen, result, -⟩ := State.complete_succeeded out s.storeSchedule (by omega)
  generalize ht : s.storeSchedule.complete out = t at encmsg olen result
  generalize hv : ({ t with ibuf := t.obuf, ilen := t.olen } : State) = v
  have ilen : v.ilen.toNat = out.length := by rw [← hv]; exact olen
  have message : v.message = out := State.message_eq_of_read ilen (by rw [← hv]; exact result)
  have key : v.keyBytes = s.keyBytes := by rw [← hv, ← ht]; rfl
  have iv : v.ivBlock = s.ivBlock := by rw [← hv, ← ht]; rfl
  have keylen : v.keylen = s.keylen := by rw [← hv, ← ht]; rfl
  have msgMax : v.msgMax = s.msgMax := by rw [← hv, ← ht]; rfl
  have body : decmsgBody v = .ok s.message := by
    rw [decmsgBody_of_whole_blocks (by omega) (by omega), message, key, iv]
    exact decryptMessage_encryptMessage (State.keyBytes_valid valid) encrypted
  have decmsg := exec_decmsg_of_valid (keylen ▸ valid) (by omega) body
  refine ⟨t, v.storeSchedule.complete s.message, encmsg, hv ▸ decmsg, rfl, ?_, fun j hj => ?_⟩
  · rw [State.complete_olen, State.message_length, BitVec.ofNat_toNat, BitVec.setWidth_eq]
  · rw [State.complete_obuf, Memory.read_ofBytes_zero, State.getD_message s hj]

/-- Settles O48: ENCMSG's equation for a valid key, and the frame of a command on a loaded schedule. -/
theorem encmsgEncryptsTheMessage : Obligations.EncmsgEncryptsTheMessage := by
  intro s legal fits valid
  obtain ⟨out, encrypted, length, encmsg⟩ := exec_encmsg_of_valid valid fits
  have most := le_of_msgMaxLegal legal
  unfold padLength at length
  have succeeded := State.complete_succeeded out s.storeSchedule (by omega)
  exact ⟨_, out, encmsg, encrypted, succeeded, by rw [succeeded.olen]; omega, by rw [succeeded.olen]; omega,
    State.storeSchedule_finish_frame valid (.ok out)⟩

/-- Settles O49: DECMSG's equation for a valid key, whose body is `decryptMessage` of the operands. -/
theorem decmsgDecryptsTheMessage : Obligations.DecmsgDecryptsTheMessage := by
  intro s m legal fits valid nonempty whole decrypted
  obtain ⟨shortest, longest⟩ := decryptMessage_length decrypted
  rw [State.message_length] at shortest longest
  have most := le_of_msgMaxLegal legal
  have succeeded := State.complete_succeeded m s.storeSchedule (by omega)
  have body : decmsgBody s = .ok m := (decmsgBody_of_whole_blocks (by bv_omega) whole).trans decrypted
  exact ⟨_, exec_decmsg_of_valid valid fits body, succeeded, shortest.trans_eq succeeded.olen.symm,
    succeeded.olen.trans_le longest, State.storeSchedule_finish_frame valid (.ok m)⟩

/-- Settles O59: both errors are the body's, taken on the loaded schedule. -/
theorem decmsgErrorsLeaveTheNewSchedule : Obligations.DecmsgErrorsLeaveTheNewSchedule := by
  intro s code fits valid cause
  have body : ∃ e : ErrorKind, e.code = code ∧ decmsgBody s = .error e := by
    obtain ⟨invalid, rfl⟩ | ⟨nonempty, whole, padding, rfl⟩ := cause
    · exact ⟨.invalidCiphertextLength, rfl, if_pos invalid⟩
    · exact ⟨.invalidPadding, rfl, (decmsgBody_of_whole_blocks (by bv_omega) whole).trans padding⟩
  obtain ⟨e, rfl, failed⟩ := body
  exact ⟨_, exec_decmsg_of_valid valid fits failed, State.fail_failed e _, State.storeSchedule_finish_frame valid (.error e)⟩

theorem messageCommand_of_too_long (body : State → Except ErrorKind (List Byte)) {s : State} (long : s.msgMax < s.ilen.toNat) :
    messageCommand body s = s.fail .messageTooLong := if_pos long

theorem exec_decmsg_of_too_long {s : State} (long : s.msgMax < s.ilen.toNat) : exec .decmsg s = .next (s.fail .messageTooLong) := by
  rw [exec_decmsg, messageCommand_of_too_long _ long]

/-- Settles O51: a full buffer's padding is a block of its own, so the ciphertext is longer than IBUF. -/
theorem fullBufferCannotBeDecryptedOnTheSameInstance : Obligations.FullBufferCannotBeDecryptedOnTheSameInstance := by
  intro s ibuf legal whole full valid
  obtain ⟨out, -, length, encmsg⟩ := exec_encmsg_of_valid valid full.le
  have most := le_of_msgMaxLegal legal
  have extra : out.length = s.msgMax + 16 := by
    rw [length, padLength, full, whole]
  obtain ⟨err, -, olen, -, -⟩ := State.complete_succeeded out s.storeSchedule (by omega)
  generalize ht : s.storeSchedule.complete out = t at encmsg err olen
  have msgMax : t.msgMax = s.msgMax := by rw [← ht]; rfl
  have decmsg := exec_decmsg_of_too_long (s := { t with ibuf := ibuf, ilen := t.olen }) (by dsimp only; omega)
  exact ⟨t, _, encmsg, err, olen.trans extra, decmsg, State.fail_failed .messageTooLong _, rfl, rfl, withErrf_rest _ _⟩

end Sys2Proof.Machine

namespace Sys2Proof.Machine

/-! ### The invariant -/

/-- The value of ERR for every error is one of R36's list. -/
theorem ErrorKind.code_mem_errValues (e : ErrorKind) : e.code ∈ errValues := by
  cases e <;> decide

/-- Settles O56: every register is 0x00, which each item allows. -/
theorem resetMeetsTheInvariant : Obligations.ResetMeetsTheInvariant where
  legal := by decide
  errf_iff := by decide
  reserved_zero := by decide
  err_value := by decide
  kvalid_iff := by decide
  rounds_zero := fun _ => rfl
  schedule := fun loaded => absurd loaded (by decide)
  no_schedule := fun _ => rfl
  olen_bound := Nat.zero_le _
  obuf_tail := fun j _ => Memory.read_nil j
  failed_empty := fun _ => rfl
  ibuf_wf := rfl
  obuf_wf := rfl

/-- The reset transition establishes the invariant for every legal MSG_MAX (R36, R250). -/
theorem State.inv_resetEvent {s : State} (legal : msgMaxLegal s.msgMax = true) : s.resetEvent.Inv :=
  { resetMeetsTheInvariant with legal := legal, olen_bound := Nat.zero_le _, ibuf_wf := rfl, obuf_wf := rfl }

/-- The invariant speaks of no operand but IBUF and not of the host's side: a state with the same results and a well-formed IBUF meets it. -/
theorem State.Inv.of_sameResults {s t : State} (inv : s.Inv) (same : SameResults s t) (ibuf_wf : t.ibuf.wf t.msgMax = true) : t.Inv := by
  cases t
  obtain ⟨rfl, rfl, rfl, rfl, rfl, rfl, rfl⟩ := same
  exact { inv with ibuf_wf := ibuf_wf }

theorem State.Inv.hostSide {s : State} (inv : s.Inv) (p : List HostOp) (tr : List PortEvent) :
    ({ s with pending := p, trace := tr } : State).Inv :=
  inv.of_sameResults ⟨rfl, rfl, rfl, rfl, rfl, rfl, rfl⟩ inv.ibuf_wf

/-- A host write keeps IBUF in canonical form: an address that names a byte of IBUF is within its capacity. -/
theorem memWrite_ibuf_wf {s : State} (wf : s.ibuf.wf s.msgMax = true) (a : Addr) (v : Byte) :
    (memWrite s a v).ibuf.wf s.msgMax = true := by
  unfold memWrite
  generalize location : locate s.msgMax a = l
  cases l with
  | ibuf j => exact Memory.wf_write wf v (locate_ibuf_lt location)
  | _ => exact wf

theorem State.Inv.memWrite {s : State} (inv : s.Inv) (a : Addr) (v : Byte) : (memWrite s a v).Inv := by
  obtain ⟨same, -, -⟩ := memWrite_frame s a v
  exact inv.of_sameResults same (same.msgMax ▸ memWrite_ibuf_wf inv.ibuf_wf a v)

/-- Taking an error keeps the invariant: it leaves no result, and the schedule as it was. -/
theorem State.Inv.fail {s : State} (inv : s.Inv) (e : ErrorKind) : (s.fail e).Inv where
  legal := inv.legal
  errf_iff := by simp [e.code_ne_zero]
  reserved_zero := (withErrf_reserved _ _).trans inv.reserved_zero
  err_value := e.code_mem_errValues
  kvalid_iff := by simpa using inv.kvalid_iff
  rounds_zero := by simpa using inv.rounds_zero
  schedule := by simpa [State.HoldsSchedule] using inv.schedule
  no_schedule := by simpa using inv.no_schedule
  olen_bound := Nat.zero_le _
  obuf_tail := fun j _ => Memory.read_nil j
  failed_empty := fun _ => rfl
  ibuf_wf := inv.ibuf_wf
  obuf_wf := rfl

/-- Completing with a result that fits OBUF keeps the invariant. -/
theorem State.Inv.complete {s : State} (inv : s.Inv) {out : List Byte} (fits : out.length ≤ s.msgMax + 16) : (s.complete out).Inv := by
  have most := le_of_msgMaxLegal inv.legal
  obtain ⟨err, errf, olen, -, beyond⟩ := State.complete_succeeded out s (by omega)
  exact {
    legal := inv.legal
    errf_iff := by simp
    reserved_zero := (withErrf_reserved _ _).trans inv.reserved_zero
    err_value := List.mem_cons_self
    kvalid_iff := by simpa using inv.kvalid_iff
    rounds_zero := by simpa using inv.rounds_zero
    schedule := by simpa [State.HoldsSchedule] using inv.schedule
    no_schedule := by simpa using inv.no_schedule
    olen_bound := olen.trans_le fits
    obuf_tail := fun j hj => beyond j (olen.symm.trans_le hj)
    failed_empty := fun failed => absurd err failed
    ibuf_wf := inv.ibuf_wf
    obuf_wf := Memory.wf_ofBytes out _ fits }

theorem State.Inv.clearSchedule {s : State} (inv : s.Inv) : s.clearSchedule.Inv where
  legal := inv.legal
  errf_iff := by simpa [State.errf] using inv.errf_iff
  reserved_zero := (withKvalid_reserved _ _).trans inv.reserved_zero
  err_value := inv.err_value
  kvalid_iff := by simp
  rounds_zero := fun _ => rfl
  schedule := by simp
  no_schedule := fun _ => rfl
  olen_bound := inv.olen_bound
  obuf_tail := inv.obuf_tail
  failed_empty := inv.failed_empty
  ibuf_wf := inv.ibuf_wf
  obuf_wf := inv.obuf_wf

/-- A key of 16, 24 or 32 bytes has 10, 12 or 14 rounds (R140). -/
theorem roundsOf_of_valid {n : Nat} (valid : keyLengthValid n = true) : roundsOf n = 10 ∨ roundsOf n = 12 ∨ roundsOf n = 14 := by
  obtain rfl | rfl | rfl := (keyLengthValid_iff n).mp valid <;> decide

theorem State.Inv.storeSchedule {s : State} (inv : s.Inv) (valid : keyLengthValid s.keylen.toNat = true) : s.storeSchedule.Inv where
  legal := inv.legal
  errf_iff := by simpa [State.errf] using inv.errf_iff
  reserved_zero := (withKvalid_reserved _ _).trans inv.reserved_zero
  err_value := inv.err_value
  kvalid_iff := by
    obtain rounds | rounds | rounds := roundsOf_of_valid valid <;> simp [rounds]
  rounds_zero := by simp
  schedule := fun _ => ⟨s.keyBytes, State.storeSchedule_holdsSchedule valid⟩
  no_schedule := by simp
  olen_bound := inv.olen_bound
  obuf_tail := inv.obuf_tail
  failed_empty := inv.failed_empty
  ibuf_wf := inv.ibuf_wf
  obuf_wf := inv.obuf_wf

/-- A command keeps the invariant: what it can do to the schedule keeps it, and so does either end. -/
theorem State.Inv.exec {i : Instr} {s t : State} (inv : s.Inv) (h : exec i s = .next t) : t.Inv := by
  obtain ⟨u, schedule, ends⟩ := exec_cases h
  have loaded : u.Inv ∧ u.msgMax = s.msgMax := by
    obtain rfl | ⟨-, ⟨valid, rfl⟩ | ⟨-, rfl⟩⟩ := schedule
    · exact ⟨inv, rfl⟩
    · exact ⟨inv.storeSchedule valid, rfl⟩
    · exact ⟨inv.clearSchedule, rfl⟩
  obtain ⟨u_inv, msgMax⟩ := loaded
  obtain ⟨e, rfl⟩ | ⟨out, fits, rfl⟩ := ends
  · exact u_inv.fail e
  · exact u_inv.complete (msgMax ▸ fits)

/-- Settles O57: by what a step can do (`step_cases`), each case with its own lemma above. -/
theorem stepKeepsTheInvariant : Obligations.StepKeepsTheInvariant := by
  intro s t inv h
  obtain idle | ⟨p, tr, u, rfl, acts⟩ := step_cases inv.legal
  · obtain rfl := Host.Outcome.next.inj (idle.symm.trans h)
    exact inv
  · have moved := inv.hostSide p tr
    obtain read | ⟨a, v, write⟩ | ⟨i, command⟩ | illegal | reset := acts
    · obtain rfl := Host.Outcome.next.inj (read.symm.trans h)
      exact moved
    · obtain rfl := Host.Outcome.next.inj (write.symm.trans h)
      exact moved.memWrite a v
    · exact moved.exec (command.symm.trans h)
    · obtain rfl := Host.Outcome.next.inj (illegal.symm.trans h)
      exact moved.fail .illegalCommand
    · obtain rfl := Host.Outcome.next.inj (reset.symm.trans h)
      exact State.inv_resetEvent inv.legal

end Sys2Proof.Machine

namespace Sys2Proof.Machine

/-! ### Locations and their addresses -/

/-- A range of the map names element `j` of its file at base + `j`. -/
theorem locate_base_add {m base j : Nat} {file : Nat → Location} (address : base + j < 2 ^ 32)
    (range : locateNat m (base + j) = file (base + j - base)) : locate m (BitVec.ofNat 32 (base + j)) = file j := by
  rw [locate_ofNat _ _ address, range, Nat.add_sub_cancel_left]

/-- The address of a location in range names that location (R51). -/
theorem locate_address {m : Nat} (legal : msgMaxLegal m = true) {l : Location} (inRange : l.inRange m = true) : locate m l.address = l := by
  have most := le_of_msgMaxLegal legal
  cases l with
  | cmd | status | err | keylen | rounds => rfl
  | reserved => cases inRange
  | ilen k =>
    rw [Location.inRange_ilen] at inRange
    exact locate_base_add (by omega) (locateNat_ilen _ _ (by omega) (by omega))
  | olen k =>
    rw [Location.inRange_olen] at inRange
    exact locate_base_add (by omega) (locateNat_olen _ _ (by omega) (by omega))
  | iv j =>
    rw [Location.inRange_iv] at inRange
    exact locate_base_add (by omega) (locateNat_iv _ _ (by omega) (by omega))
  | key j =>
    rw [Location.inRange_key] at inRange
    exact locate_base_add (by omega) (locateNat_key _ _ (by omega) (by omega))
  | rk j =>
    rw [Location.inRange_rk] at inRange
    exact locate_base_add (by omega) (locateNat_rk _ _ (by omega) (by omega))
  | ibuf j =>
    rw [Location.inRange_ibuf] at inRange
    exact locate_base_add (base := 0x10000000) (by omega) (locateNat_ibuf _ _ (by omega) (by omega))
  | obuf j =>
    rw [Location.inRange_obuf] at inRange
    exact locate_base_add (base := 0x20000000) (by omega) (locateNat_obuf _ _ most (by omega) (by omega))

/-- An address whose number lies in a file of bytes from `base` on is `base + j` for its index `j`. -/
theorem ofNat_base_add_sub {a : Addr} {base : Nat} (h : base ≤ a.toNat) : BitVec.ofNat 32 (base + (a.toNat - base)) = a := by
  rw [Nat.add_sub_cancel' h, BitVec.ofNat_toNat, BitVec.setWidth_eq]

/-- Every address of the map is written for a location in range (R51). -/
theorem exists_location_of_address {m : Nat} {a : Addr} (named : locate m a ≠ .reserved) :
    ∃ l : Location, l.inRange m = true ∧ l.address = a := by
  have single : ∀ {b : Addr}, a.toNat = b.toNat → b = a := fun h => BitVec.eq_of_toNat_eq h.symm
  obtain low | ⟨lo, hi⟩ | ⟨lo, hi⟩ | ⟨lo, hi⟩ | ⟨lo, hi⟩ := locateNat_cases m a.toNat named
  · have rows : a.toNat = 0 ∨ a.toNat = 1 ∨ a.toNat = 2 ∨ a.toNat = 3 ∨ (4 ≤ a.toNat ∧ a.toNat < 8) ∨
        (8 ≤ a.toNat ∧ a.toNat < 0xC) ∨ a.toNat = 0xC := by omega
    obtain h | h | h | h | ⟨lo, hi⟩ | ⟨lo, hi⟩ | h := rows
    · exact ⟨.cmd, rfl, single h⟩
    · exact ⟨.status, rfl, single h⟩
    · exact ⟨.err, rfl, single h⟩
    · exact ⟨.keylen, rfl, single h⟩
    · exact ⟨.ilen (a.toNat - 4), by rw [Location.inRange_ilen]; omega, ofNat_base_add_sub lo⟩
    · exact ⟨.olen (a.toNat - 8), by rw [Location.inRange_olen]; omega, ofNat_base_add_sub lo⟩
    · exact ⟨.rounds, rfl, single h⟩
  · rcases Nat.lt_or_ge a.toNat 0x20 with mid | mid
    · exact ⟨.iv (a.toNat - 0x10), by rw [Location.inRange_iv]; omega, ofNat_base_add_sub lo⟩
    · exact ⟨.key (a.toNat - 0x20), by rw [Location.inRange_key]; omega, ofNat_base_add_sub mid⟩
  · exact ⟨.rk (a.toNat - 0x100), by rw [Location.inRange_rk]; omega, ofNat_base_add_sub lo⟩
  · exact ⟨.ibuf (a.toNat - ibufBase), by rw [Location.inRange_ibuf, ibufBase]; omega, ofNat_base_add_sub lo⟩
  · exact ⟨.obuf (a.toNat - obufBase), by rw [Location.inRange_obuf, obufBase]; omega, ofNat_base_add_sub lo⟩

theorem locate_inRange_and_address {m : Nat} (legal : msgMaxLegal m = true) {a : Addr} (named : locate m a ≠ .reserved) :
    (locate m a).inRange m = true ∧ (locate m a).address = a := by
  obtain ⟨l, inRange, rfl⟩ := exists_location_of_address named
  rw [locate_address legal inRange]
  exact ⟨inRange, rfl⟩

/-- Settles O9: an address of the map is some location's, and a location's address names it. -/
theorem locationAddressesRoundTrip : Obligations.LocationAddressesRoundTrip :=
  fun _ legal => ⟨fun _ => locate_address legal, fun _ => locate_inRange_and_address legal⟩

/-! ### Reads -/

/-- A host read of a register of access RO or RW gives its byte (R52). -/
theorem memRead_of_readable {s : State} {a : Addr}
    (readable : (locate s.msgMax a).access = .readOnly ∨ (locate s.msgMax a).access = .readWrite) :
    memRead s a = s.peek (locate s.msgMax a) := by
  unfold memRead
  obtain access | access := readable <;> rw [access]

theorem memRead_reserved {s : State} {a : Addr} (reserved : locate s.msgMax a = .reserved) : memRead s a = 0x00#8 := by
  rw [memRead, reserved]
  rfl

theorem memRead_cmd (s : State) : memRead s 0x00#32 = 0x00#8 := rfl

theorem memRead_address {s : State} (legal : msgMaxLegal s.msgMax = true) {l : Location} (inRange : l.inRange s.msgMax = true)
    (readable : l.access = .readOnly ∨ l.access = .readWrite) : memRead s l.address = s.peek l := by
  have located := locate_address legal inRange
  rw [memRead_of_readable (by rwa [located]), located]

/-- Settles O11: each register is read at the address of its location. -/
theorem hostReadsEachRegisterAtItsAddress : Obligations.HostReadsEachRegisterAtItsAddress := by
  intro s legal
  refine ⟨memRead_cmd s, rfl, rfl, rfl, fun k hk => ?_, fun k hk => ?_, rfl, fun j => ?_, fun j => ?_, fun j => ?_, fun j hj => ?_,
    fun j hj => ?_⟩
  · exact memRead_address (l := .ilen k) legal (by simpa using hk) (.inr rfl)
  · exact memRead_address (l := .olen k) legal (by simpa using hk) (.inl rfl)
  · exact (memRead_address (l := .iv j) legal (by simp) (.inr rfl)).trans (fileRead_eq_getElem s.iv j j.isLt)
  · exact (memRead_address (l := .key j) legal (by simp) (.inr rfl)).trans (fileRead_eq_getElem s.key j j.isLt)
  · exact (memRead_address (l := .rk j) legal (by simp) (.inl rfl)).trans (fileRead_eq_getElem s.rk j j.isLt)
  · exact memRead_address (l := .ibuf j) legal (by simpa using hj) (.inr rfl)
  · exact memRead_address (l := .obuf j) legal (by simpa using hj) (.inl rfl)

/-- Settles O12: ILEN0 to ILEN3 and OLEN0 to OLEN3 are the bytes of their length register. -/
theorem lengthRegistersAreLittleEndian : Obligations.LengthRegistersAreLittleEndian :=
  fun s => ⟨len_eq_bytes s.ilen, len_eq_bytes s.olen⟩

/-- Settles O10: `step_read`, and what a read gives by the access type of its address. -/
theorem hostReadGivesTheRegister : Obligations.HostReadGivesTheRegister := by
  intro s a rest legal read
  refine ⟨step_read legal read, memRead_of_readable, ?_⟩
  rintro (rfl | reserved)
  · exact memRead_cmd s
  · exact memRead_reserved reserved

/-! ### Writes -/

theorem memWrite_of_readWrite {s : State} {a : Addr} (access : (locate s.msgMax a).access = .readWrite) (v : Byte) :
    memWrite s a v = s.poke v (locate s.msgMax a) := by
  rw [memWrite, access]

/-- A reserved address and a register of access RO ignore writes (R53, R54). -/
theorem memWrite_of_ignored {s : State} {a : Addr} (ignored : locate s.msgMax a = .reserved ∨ (locate s.msgMax a).access = .readOnly)
    (v : Byte) : memWrite s a v = s := by
  obtain reserved | access := ignored
  · rw [memWrite, reserved]
    rfl
  · rw [memWrite, access]

/-- CMD is the one location of access WO (R51). -/
theorem ne_cmd_of_access {l : Location} (access : l.access ≠ .writeOnly) : l ≠ .cmd := by
  rintro rfl
  exact access rfl

theorem locate_ne_cmd {m : Nat} (legal : msgMaxLegal m = true) {a : Addr} (ha : a ≠ 0x00000000#32) : locate m a ≠ .cmd := by
  intro located
  obtain ⟨-, address⟩ := locate_inRange_and_address legal (a := a) (by simp [located])
  rw [located] at address
  exact ha address.symm

/-- Read after write at the port. -/
theorem memRead_memWrite {s : State} (legal : msgMaxLegal s.msgMax = true) (wf : s.ibuf.wf s.msgMax = true) {a : Addr}
    (access : (locate s.msgMax a).access = .readWrite) (v : Byte) (b : Addr) :
    memRead (memWrite s a v) b = if b = a then v else memRead s b := by
  obtain ⟨same, -, -⟩ := memWrite_frame s a v
  have named_a : locate s.msgMax a ≠ .reserved := fun h => by simp [h, Location.access] at access
  obtain ⟨inRange_a, address_a⟩ := locate_inRange_and_address legal named_a
  have map : locate (memWrite s a v).msgMax b = locate s.msgMax b := by rw [same.msgMax]
  unfold memRead
  rw [map]
  by_cases named_b : locate s.msgMax b = .reserved
  · have other : b ≠ a := fun h => named_a (h ▸ named_b)
    rw [if_neg other, named_b]
    rfl
  obtain ⟨inRange_b, address_b⟩ := locate_inRange_and_address legal named_b
  have location_eq : locate s.msgMax b = locate s.msgMax a ↔ b = a :=
    ⟨fun h => by rw [← address_b, h, address_a], fun h => by rw [h]⟩
  rw [memWrite_of_readWrite access, State.peek_poke wf v inRange_a inRange_b access]
  simp only [location_eq]
  by_cases h : b = a
  · simp [h, access]
  · simp [h]

/-- Settles O13: read after write at the port, and the frame of `memWrite`. -/
theorem hostWriteStoresOneRegister : Obligations.HostWriteStoresOneRegister := by
  intro s a v rest legal wf write access
  have step_eq := step_write legal write (ne_cmd_of_access (by simp [access]))
  have read := memRead_memWrite (s := { s with pending := rest, trace := .write a v :: s.trace }) legal wf access v
  obtain ⟨⟨obuf, olen, rk, rounds, status, err, msgMax⟩, pending, trace⟩ :=
    memWrite_frame { s with pending := rest, trace := .write a v :: s.trace } a v
  exact ⟨_, step_eq, (read a).trans (if_pos rfl), fun b hb => (read b).trans (if_neg hb), ⟨obuf, olen, rk, rounds, status, err, msgMax⟩,
    pending, trace⟩

/-- Settles O14: an ignored write is none, and `memWrite`'s frame holds ERR. -/
theorem reservedAndReadOnlyWritesAreIgnored : Obligations.ReservedAndReadOnlyWritesAreIgnored := by
  intro s a rest legal
  refine ⟨memRead_reserved, fun v write ignored => ?_, fun v write not_cmd => ?_, fun read => ⟨_, step_read legal read, rfl⟩⟩
  · have not_cmd : locate s.msgMax a ≠ .cmd := by
      obtain reserved | access := ignored
      · simp [reserved]
      · exact ne_cmd_of_access (by simp [access])
    rw [step_write legal write not_cmd, memWrite_of_ignored (by exact ignored)]
  · exact ⟨_, step_write legal write (locate_ne_cmd legal not_cmd), (memWrite_frame _ a v).1.err⟩

end Sys2Proof.Machine

namespace Sys2Proof.Machine

/-! ### The operands as bytes -/

theorem State.get_inputBlock (s : State) {i : Nat} (hi : i < 16) : s.inputBlock.get i = s.ibuf.read i := by
  rw [State.inputBlock, Block.get_ofBytes _ _ hi, Memory.getD_readBytes _ _ _ _ hi, Nat.zero_add]

theorem State.getD_keyBytes (s : State) {j : Nat} (hj : j < s.keylen.toNat) : s.keyBytes.getD j 0x00#8 = fileRead s.key j := by
  rw [State.keyBytes, fileRead_eq_getD, List.getD_eq_getElem?_getD, List.getElem?_take_of_lt hj, List.getD_eq_getElem?_getD]

theorem State.schedule_length (s : State) : s.schedule.length = s.rounds.toNat + 1 := blocksOf_length _ _

theorem State.get_roundKey_schedule (s : State) {k j : Nat} (hk : k ≤ s.rounds.toNat) (hj : j < 16) :
    (roundKey s.schedule k).get j = fileRead s.rk (16 * k + j) := by
  rw [roundKey, State.schedule, getD_blocksOf _ _ _ (Nat.lt_succ_of_le hk), Block.get_ofBytes _ _ hj, fileRead_eq_getD,
    List.getD_eq_getElem?_getD, List.getElem?_drop, List.getD_eq_getElem?_getD]

/-- Settles O37: one lemma per operand. -/
theorem operandsAreTheRegisters : Obligations.OperandsAreTheRegisters := by
  intro s
  refine ⟨fun i => s.get_inputBlock, fun j hj => ?_, s.schedule_length, fun k j => s.get_roundKey_schedule, s.message_length,
    fun j => s.getD_message, State.keyBytes_length, fun j => s.getD_keyBytes⟩
  rw [State.ivBlock, Block.get_ofBytes _ _ hj, fileRead_eq_getD]

/-! ### EXPANDKEY -/

/-- RK after a key of a valid length has loaded: its round keys, byte by byte, and 0x00 beyond them (R147). -/
theorem State.fileRead_storeSchedule_rk {s : State} (valid : keyLengthValid s.keylen.toNat = true) :
    (∀ k j, k ≤ s.keylen.toNat / 4 + 6 → j < 16 →
      fileRead s.storeSchedule.rk (16 * k + j) = (roundKey (expandKey s.keyBytes) k).get j) ∧
    ∀ j, 16 * (s.keylen.toNat / 4 + 7) ≤ j → fileRead s.storeSchedule.rk j = 0x00#8 := by
  have lengths := (keyLengthValid_iff _).mp valid
  have length : (bytesOf (expandKey s.keyBytes)).length = 16 * (s.keylen.toNat / 4 + 7) := by
    rw [bytesOf_length, expandKey_length _ (by rw [State.keyBytes_length_of_valid valid]; omega), State.keyBytes_length_of_valid valid]
  refine ⟨fun k j hk hj => ?_, fun j hj => ?_⟩
  · rw [State.storeSchedule_rk, fileRead_fileOf, if_pos (by omega), getD_bytesOf _ _ _ hj, roundKey]
  · rw [State.storeSchedule_rk, fileRead_fileOf, List.getD_eq_default _ _ (by omega), ite_self]

/-- Settles O29: EXPANDKEY's equation for a valid key, and RK as the loaded schedule. -/
theorem expandkeyLoadsTheSchedule : Obligations.ExpandkeyLoadsTheSchedule := by
  intro s keylen
  have lengths : s.keylen.toNat = 16 ∨ s.keylen.toNat = 24 ∨ s.keylen.toNat = 32 := by bv_omega
  have valid := (keyLengthValid_iff _).mpr lengths
  have rounds : s.storeSchedule.rounds.toNat = s.keylen.toNat / 4 + 6 := by
    rw [State.storeSchedule_rounds, roundsOf, BitVec.toNat_ofNat]
    omega
  obtain ⟨schedule, beyond⟩ := State.fileRead_storeSchedule_rk valid
  obtain ⟨kvalid, -, inputs, reserved⟩ := State.storeSchedule_finish_frame valid (.ok [])
  exact ⟨_, exec_expandkey_valid valid, rounds, kvalid, schedule, beyond, State.complete_succeeded [] _ (by decide), inputs, reserved⟩

/-! ### The block commands -/

theorem exec_block {i : Instr} (block : i = .encblk ∨ i = .decblk) :
    ∃ f : Block → List Block → Block, ∀ s, exec i s = .next (blockCommand f s) := by
  obtain rfl | rfl := block
  · exact ⟨encryptBlock, exec_encblk⟩
  · exact ⟨decryptBlock, exec_decblk⟩

theorem blockCommand_of_bad_length (f : Block → List Block → Block) {s : State} (length : s.ilen ≠ 16#32) :
    blockCommand f s = s.fail .invalidBlockLength := if_pos length

theorem blockCommand_of_no_schedule (f : Block → List Block → Block) {s : State} (length : s.ilen = 16#32) (unloaded : s.kvalid = false) :
    blockCommand f s = s.fail .noSchedule :=
  (if_neg (not_not_intro length)).trans (if_pos unloaded)

/-- What a block command does where it completes (R171, R172). -/
theorem blockCommand_completes (f : Block → List Block → Block) {s : State} (length : s.ilen = 16#32) (loaded : s.kvalid = true) :
    (blockCommand f s).olen = 16#32 ∧ Succeeded (blockCommand f s) (f s.inputBlock s.schedule).toBytes ∧
      (∀ j, j < 16 → (blockCommand f s).obuf.read j = (f s.inputBlock s.schedule).get j) ∧
      SameInputs s (blockCommand f s) ∧ SameSchedule s (blockCommand f s) := by
  rw [blockCommand_ok f length loaded]
  refine ⟨rfl, State.complete_succeeded _ s (by simp), fun j _ => ?_, State.complete_sameInputs _ s, State.complete_sameSchedule _ s⟩
  rw [State.complete_obuf, Memory.read_ofBytes_zero, Block.getD_toBytes]

/-- Settles O38: ENCBLK is the block command of `encryptBlock`. -/
theorem encblkEncryptsTheInputBlock : Obligations.EncblkEncryptsTheInputBlock :=
  fun s length loaded => ⟨_, exec_encblk s, blockCommand_completes encryptBlock length loaded⟩

/-- Settles O39: DECBLK is the block command of `decryptBlock`. -/
theorem decblkDecryptsTheInputBlock : Obligations.DecblkDecryptsTheInputBlock :=
  fun s length loaded => ⟨_, exec_decblk s, blockCommand_completes decryptBlock length loaded⟩

theorem State.inputBlock_of_ibuf {s : State} {b : Block} (copied : s.ibuf = Memory.ofBytes 0 b.toBytes) : s.inputBlock = b := by
  have bytes : (Memory.ofBytes 0 b.toBytes).readBytes 0 16 = b.toBytes :=
    Memory.readBytes_eq (l := b.toBytes) fun j _ => Memory.read_ofBytes_zero _ j
  rw [State.inputBlock, copied, bytes, Block.ofBytes_toBytes]

/-- Settles O40: ENCBLK's result, copied to IBUF, is the block that DECBLK decrypts, under the schedule that ENCBLK has kept. -/
theorem decblkUndoesEncblkInRegisters : Obligations.DecblkUndoesEncblkInRegisters := by
  intro s key keylen iv length loaded
  have encblk : exec .encblk s = .next (s.complete (encryptBlock s.inputBlock s.schedule).toBytes) := by
    rw [exec_encblk, blockCommand_ok _ length loaded]
  generalize ht : s.complete (encryptBlock s.inputBlock s.schedule).toBytes = t at encblk
  generalize hv : ({ t with ibuf := t.obuf, key := key, keylen := keylen, iv := iv } : State) = v
  have input : v.inputBlock = encryptBlock s.inputBlock s.schedule := State.inputBlock_of_ibuf (by rw [← hv, ← ht]; rfl)
  have schedule : v.schedule = s.schedule := by rw [← hv, ← ht]; rfl
  have kvalid : v.kvalid = true :=
    calc v.kvalid = t.kvalid := by rw [← hv]; rfl
      _ = true := by rw [← ht, State.complete_kvalid, loaded]
  obtain ⟨-, succeeded, result, -, -⟩ := blockCommand_completes decryptBlock (s := v) (by rw [← hv, ← ht]; exact length) kvalid
  refine ⟨t, _, encblk, hv ▸ exec_decblk v, succeeded.err, fun j hj => ?_⟩
  rw [result j hj, input, schedule, decryptBlock_encryptBlock, State.get_inputBlock s hj]

/-- Settles O41: the two states give the command the same tests, the same input block and the same schedule. -/
theorem blockCommandsReadOnlyTheirOperands : Obligations.BlockCommandsReadOnlyTheirOperands := by
  intro i s s' block ilen ibuf status rounds rk
  have kvalid : s'.kvalid = s.kvalid := by rw [State.kvalid, ← status, State.kvalid]
  have input : s'.inputBlock = s.inputBlock := by rw [State.inputBlock, ← Memory.readBytes_congr ibuf, State.inputBlock]
  have schedule : s'.schedule = s.schedule := by rw [State.schedule, ← rounds, ← rk, State.schedule]
  obtain ⟨f, runs⟩ := exec_block block
  refine ⟨_, _, runs s, runs s', ?_⟩
  unfold blockCommand
  rw [kvalid, input, schedule, ← ilen]
  split_ifs <;> exact ⟨rfl, rfl, rk.symm, rounds.symm, congrArg (withErrf · _) status.symm, rfl, rfl⟩

/-! ### What the key and message commands read -/

/-- Two states whose schedules agree, bit by bit, show the same outcome when a command ends alike in both. -/
theorem SameOutcome.finish {u u' : State} (rk : u'.rk = u.rk) (rounds : u'.rounds = u.rounds) (kvalid : u'.kvalid = u.kvalid)
    (r : Except ErrorKind (List Byte)) : SameOutcome (u.finish r) (u'.finish r) := by
  cases r with
  | ok out => exact ⟨rfl, rfl, rk, rounds, by simpa [State.finish] using kvalid, by simp [State.finish], rfl⟩
  | error e => exact ⟨rfl, rfl, rk, rounds, by simpa [State.finish] using kvalid, by simp [State.finish], rfl⟩

theorem SameOutcome.clearSchedule_fail (s s' : State) (e : ErrorKind) : SameOutcome (s.clearSchedule.fail e) (s'.clearSchedule.fail e) :=
  .finish (u := s.clearSchedule) (u' := s'.clearSchedule) rfl rfl (by simp) (.error e)

section
variable {s s' : State} (keylen : s.keylen = s'.keylen)
include keylen

theorem State.keyBytes_congr (key : ∀ j, j < s.keylen.toNat → fileRead s.key j = fileRead s'.key j) : s'.keyBytes = s.keyBytes := by
  apply List.ext_getElem
  · simp [State.keyBytes, keylen]
  · intro j h' h
    have hj : j < s.keylen.toNat := by
      rw [State.keyBytes, List.length_take] at h
      omega
    rw [← List.getD_eq_getElem _ 0x00#8 h, ← List.getD_eq_getElem _ 0x00#8 h', State.getD_keyBytes s hj,
      State.getD_keyBytes s' (keylen ▸ hj), key j hj]

theorem SameOutcome.storeSchedule_finish (key : s'.keyBytes = s.keyBytes) (r : Except ErrorKind (List Byte)) :
    SameOutcome (s.storeSchedule.finish r) (s'.storeSchedule.finish r) :=
  .finish (by rw [State.storeSchedule_rk, key, State.storeSchedule_rk])
    (by rw [State.storeSchedule_rounds, ← keylen, State.storeSchedule_rounds]) (by simp) r

theorem SameOutcome.messageCommand {body : State → Except ErrorKind (List Byte)} (key : s'.keyBytes = s.keyBytes)
    (msgMax : s.msgMax = s'.msgMax) (ilen : s.ilen = s'.ilen) (same_body : body s'.storeSchedule = body s.storeSchedule)
    (kept : s.msgMax < s.ilen.toNat → s.rk = s'.rk ∧ s.rounds = s'.rounds ∧ s.kvalid = s'.kvalid) :
    SameOutcome (messageCommand body s) (messageCommand body s') := by
  obtain ⟨long, ends⟩ | ⟨fits, invalid, ends⟩ | ⟨fits, valid, ends⟩ := messageCommand_cases body s <;> rw [ends]
  · obtain ⟨rk, rounds, kvalid⟩ := kept long
    rw [messageCommand_of_too_long body (s := s') (by rwa [← msgMax, ← ilen])]
    exact .finish rk.symm rounds.symm kvalid.symm (.error .messageTooLong)
  · rw [messageCommand_invalid_key_length body (s := s') (by rwa [← msgMax, ← ilen]) (by rwa [← keylen])]
    exact .clearSchedule_fail s s' .invalidKeyLength
  · rw [messageCommand_of_valid (s := s') (by rwa [← keylen]) body (by rwa [← msgMax, ← ilen]), same_body]
    exact .storeSchedule_finish keylen key _

end

/-- Settles O42: equal operands give equal tests and equal results, and the schedule that is stored depends on the key alone. -/
theorem keyAndMessageCommandsReadOnlyTheirOperands : Obligations.KeyAndMessageCommandsReadOnlyTheirOperands := by
  intro s s' keylen key
  have key_eq := State.keyBytes_congr keylen key
  refine ⟨?_, fun i message msgMax iv ilen ibuf kept => ?_⟩
  · cases valid : keyLengthValid s.keylen.toNat
    · exact ⟨_, _, exec_expandkey_invalid valid, exec_expandkey_invalid (by rwa [← keylen]), .clearSchedule_fail s s' _⟩
    · exact ⟨_, _, exec_expandkey_valid valid, exec_expandkey_valid (by rwa [← keylen]), .storeSchedule_finish keylen key_eq (.ok [])⟩
  · have message_eq : s'.message = s.message := by
      rw [State.message, ← ilen, ← Memory.readBytes_congr ibuf, State.message]
    have iv_eq : s'.ivBlock = s.ivBlock := by rw [State.ivBlock, ← iv, State.ivBlock]
    obtain rfl | rfl := message
    · refine ⟨_, _, exec_encmsg s, exec_encmsg s', .messageCommand keylen key_eq msgMax ilen ?_ kept⟩
      simp only [State.storeSchedule_message, State.storeSchedule_keyBytes, State.storeSchedule_ivBlock, message_eq, key_eq, iv_eq]
    · refine ⟨_, _, exec_decmsg s, exec_decmsg s', .messageCommand keylen key_eq msgMax ilen ?_ kept⟩
      change decmsgBody s' = decmsgBody s
      rw [decmsgBody, ← ilen, message_eq, key_eq, iv_eq, decmsgBody]

/-! ### What every command keeps -/

/-- The inputs and the reserved bits of STATUS stay, by what a command can do (`exec_cases`). -/
theorem exec_frame {i : Instr} {s t : State} (h : exec i s = .next t) :
    SameInputs s t ∧ t.status &&& 0xFC#8 = s.status &&& 0xFC#8 := by
  obtain ⟨u, schedule, ends⟩ := exec_cases h
  have loading : SameInputs s u ∧ u.status &&& 0xFC#8 = s.status &&& 0xFC#8 := by
    obtain rfl | ⟨-, ⟨-, rfl⟩ | ⟨-, rfl⟩⟩ := schedule
    · exact ⟨⟨rfl, rfl, rfl, rfl, rfl, rfl, rfl, rfl⟩, rfl⟩
    · exact ⟨s.storeSchedule_sameInputs, withKvalid_reserved _ _⟩
    · exact ⟨s.clearSchedule_sameInputs, withKvalid_reserved _ _⟩
  obtain ⟨inputs, reserved⟩ := loading
  obtain ⟨e, rfl⟩ | ⟨out, -, rfl⟩ := ends
  · exact ⟨inputs.trans (State.fail_sameInputs e u), (withErrf_reserved _ _).trans reserved⟩
  · exact ⟨inputs.trans (State.complete_sameInputs out u), (withErrf_reserved _ _).trans reserved⟩

/-- The registers of access RW are the inputs. -/
theorem SameInputs.peek_eq {s t : State} (same : SameInputs s t) {l : Location} (access : l.access = .readWrite) : t.peek l = s.peek l := by
  cases l with
  | keylen => exact same.keylen
  | ilen k => exact congrArg (lenByte · k) same.ilen
  | iv j => exact congrArg (fileRead · j) same.iv
  | key j => exact congrArg (fileRead · j) same.key
  | ibuf j => exact congrArg (Memory.read · j) same.ibuf
  | cmd | status | err | olen k | rounds | rk j | obuf j | reserved => cases access

theorem SameInputs.memRead_eq {s t : State} (same : SameInputs s t) {a : Addr} (access : (locate s.msgMax a).access = .readWrite) :
    memRead t a = memRead s a := by
  have map : locate t.msgMax a = locate s.msgMax a := by rw [same.msgMax]
  rw [memRead_of_readable (s := t) (by rw [map]; exact .inr access), memRead_of_readable (.inr access), map, same.peek_eq access]

/-- Settles O53: a command fails or completes, and each end does to the result registers what its lemma says. -/
theorem commandsEndOnceWithNoPartialResult : Obligations.CommandsEndOnceWithNoPartialResult := by
  intro i s
  obtain ⟨t, runs⟩ := exec_total i s
  refine ⟨t, runs, ?_⟩
  obtain ⟨u, -, ⟨e, rfl⟩ | ⟨out, -, rfl⟩⟩ := exec_cases runs
  · exact ⟨fun _ => State.fail_failed e u, fun none => absurd none e.code_ne_zero, e.code_mem_errValues⟩
  · exact ⟨fun failed => absurd rfl failed, fun _ => State.complete_errf out u, List.mem_cons_self⟩

/-- Settles O54: `exec_frame`, and what the block commands and a message that is too long do to the schedule. -/
theorem commandsKeepTheirInputs : Obligations.CommandsKeepTheirInputs := by
  intro i s
  obtain ⟨t, runs⟩ := exec_total i s
  obtain ⟨inputs, reserved⟩ := exec_frame runs
  refine ⟨t, runs, inputs, reserved, fun block => ?_, fun message long => ?_, fun a => inputs.memRead_eq⟩
  · obtain ⟨f, ends⟩ := exec_block block
    obtain rfl := Host.Outcome.next.inj ((ends s).symm.trans runs)
    exact blockCommand_sameSchedule f s
  · have kept : ∀ body, SameSchedule s (messageCommand body s) := fun body => by
      rw [messageCommand_of_too_long body long]
      exact State.fail_sameSchedule _ s
    obtain rfl | rfl := message <;> obtain rfl := Host.Outcome.next.inj runs <;> exact kept _

/-! ### A command twice -/

theorem State.fail_fail (e : ErrorKind) (s : State) : (s.fail e).fail e = s.fail e := by
  simp [State.fail]

theorem State.complete_complete (out : List Byte) (s : State) : (s.complete out).complete out = s.complete out := by
  simp [State.complete]

theorem State.clearSchedule_fail_twice (e : ErrorKind) (s : State) :
    (s.clearSchedule.fail e).clearSchedule.fail e = s.clearSchedule.fail e := by
  simp [State.fail, State.clearSchedule]

/-- Loading the same key again, after the command has ended, changes nothing. -/
theorem State.storeSchedule_finish_twice (r : Except ErrorKind (List Byte)) (s : State) :
    (s.storeSchedule.finish r).storeSchedule.finish r = s.storeSchedule.finish r := by
  cases r with
  | ok out => simp [State.finish, State.complete, State.storeSchedule, State.keyBytes]
  | error e => simp [State.finish, State.fail, State.storeSchedule, State.keyBytes]

/-- A block command ends the second time as it ended the first: it reads nothing that it has written. -/
theorem blockCommand_twice (f : Block → List Block → Block) (s : State) : blockCommand f (blockCommand f s) = blockCommand f s := by
  obtain ⟨length, ends⟩ | ⟨length, unloaded, ends⟩ | ⟨length, loaded, ends⟩ := blockCommand_cases f s <;> rw [ends]
  · rw [blockCommand_of_bad_length f (by exact length), State.fail_fail]
  · rw [blockCommand_of_no_schedule f (by exact length) ((State.fail_kvalid _ s).trans unloaded), State.fail_fail]
  · rw [blockCommand_ok f (s := s.complete _) length ((State.complete_kvalid _ s).trans loaded)]
    exact State.complete_complete _ s

theorem messageCommand_twice {body : State → Except ErrorKind (List Byte)} (reads_inputs : ∀ {s t : State}, SameInputs s t → body t = body s)
    (s : State) : messageCommand body (messageCommand body s) = messageCommand body s := by
  obtain ⟨long, ends⟩ | ⟨fits, invalid, ends⟩ | ⟨fits, valid, ends⟩ := messageCommand_cases body s <;> rw [ends]
  · rw [messageCommand_of_too_long body (by exact long), State.fail_fail]
  · rw [messageCommand_invalid_key_length body (by exact fits) (by exact invalid), State.clearSchedule_fail_twice]
  · obtain ⟨-, -, inputs, -⟩ := State.storeSchedule_finish_frame valid (body s.storeSchedule)
    rw [messageCommand_of_valid (by rwa [inputs.keylen]) body (by rwa [inputs.ilen, inputs.msgMax]),
      reads_inputs (inputs.trans (State.storeSchedule_sameInputs _)), ← reads_inputs s.storeSchedule_sameInputs,
      State.storeSchedule_finish_twice]

theorem SameInputs.message_eq {s t : State} (same : SameInputs s t) : t.message = s.message := by
  rw [State.message, same.ibuf, same.ilen, State.message]

theorem SameInputs.keyBytes_eq {s t : State} (same : SameInputs s t) : t.keyBytes = s.keyBytes := by
  rw [State.keyBytes, same.key, same.keylen, State.keyBytes]

theorem SameInputs.ivBlock_eq {s t : State} (same : SameInputs s t) : t.ivBlock = s.ivBlock := by
  rw [State.ivBlock, same.iv, State.ivBlock]

theorem SameInputs.decmsgBody_eq {s t : State} (same : SameInputs s t) : decmsgBody t = decmsgBody s := by
  rw [decmsgBody, same.ilen, same.message_eq, same.keyBytes_eq, same.ivBlock_eq, decmsgBody]

/-- Settles O55: a command reads its inputs and, a block command, the schedule, and writes neither but the same again. -/
theorem commandTwiceIsCommandOnce : Obligations.CommandTwiceIsCommandOnce := by
  intro i s
  cases i with
  | expandkey =>
    cases valid : keyLengthValid s.keylen.toNat
    · refine ⟨_, exec_expandkey_invalid valid, ?_⟩
      rw [exec_expandkey_invalid (by exact valid), State.clearSchedule_fail_twice]
    · refine ⟨_, exec_expandkey_valid valid, ?_⟩
      rw [exec_expandkey_valid (by exact valid)]
      exact congrArg Host.Outcome.next (State.storeSchedule_finish_twice (.ok []) s)
  | encblk => exact ⟨_, exec_encblk s, by rw [exec_encblk, blockCommand_twice]⟩
  | decblk => exact ⟨_, exec_decblk s, by rw [exec_decblk, blockCommand_twice]⟩
  | encmsg =>
    refine ⟨_, exec_encmsg s, ?_⟩
    rw [exec_encmsg, messageCommand_twice fun same => by rw [same.message_eq, same.keyBytes_eq, same.ivBlock_eq]]
  | decmsg => exact ⟨_, exec_decmsg s, by rw [exec_decmsg, messageCommand_twice SameInputs.decmsgBody_eq]⟩

end Sys2Proof.Machine

namespace Sys2Proof.Machine

/-! ### The decoder and the step -/

theorem decode_eq_ok_iff (b : Byte) (i : Instr) : decode b = .ok i ↔ b = encode i := by
  constructor
  · intro decoded
    obtain ⟨j, rfl, decoded_j⟩ | illegal := decode_cases b
    · rw [Except.ok.inj (decoded_j.symm.trans decoded)]
    · rw [illegal] at decoded
      cases decoded
  · rintro rfl
    exact decode_encode i

/-- A command's word in the table is its opcode (R81). -/
@[simp] theorem tableByte_encode (i : Instr) : tableByte 8 (encode i).toNat = encode i := by
  rw [tableByte, Nat.mod_eq_of_lt (encode i).isLt, BitVec.ofNat_toNat, BitVec.setWidth_eq]

/-- Settles O2: the decoder undoes the encoder and knows no other byte; the table's word is the opcode. -/
theorem decodeAndEncodeAgree : Obligations.DecodeAndEncodeAgree :=
  ⟨decode_eq_ok_iff, fun i => by rw [decodeTableWord, tableByte_encode, decode_encode]⟩

theorem runCommand_of_decode {op : Byte} {i : Instr} (decoded : decode op = .ok i) (s : State) : runCommand op s = exec i s := by
  rw [runCommand, decoded]

/-- Settles O4: `step_write_cmd`, and what running a byte is where it decodes. -/
theorem stepRunsTheDecodedCommand : Obligations.StepRunsTheDecodedCommand := by
  intro s op rest legal write
  have runs := step_write_cmd legal write
  exact ⟨runs, fun i decoded => runs.trans (runCommand_of_decode decoded _)⟩

/-- Settles O5: the placed word is a write of the opcode to CMD. -/
theorem placedCommandRunsNext : Obligations.PlacedCommandRunsNext := by
  intro s i legal
  have placed : s.withFetchWord 8 (encode i).toNat = { s with pending := .write 0x00000000#32 (encode i) :: s.pending } := by
    rw [State.withFetchWord, tableByte_encode]
    rfl
  rw [placed, step_write_cmd (s := { s with pending := .write 0x00000000#32 (encode i) :: s.pending }) legal rfl,
    runCommand_of_decode (decode_encode i)]

/-- Settles O6: the step with nothing pending. -/
theorem idleCoreKeepsItsState : Obligations.IdleCoreKeepsItsState := fun _ => step_idle

/-- Settles O7: `step` tests MSG_MAX before anything else. -/
theorem illegalMsgMaxIsRefused : Obligations.IllegalMsgMaxIsRefused := by
  intro s outside
  have illegal : ¬ msgMaxLegal s.msgMax = true := by
    rw [msgMaxLegal_iff]
    omega
  exact if_neg illegal

/-- With a legal MSG_MAX a step answers a next state of the same MSG_MAX. -/
theorem step_total {s : State} (legal : msgMaxLegal s.msgMax = true) : ∃ t, step s = .next t ∧ t.msgMax = s.msgMax := by
  obtain idle | ⟨p, tr, u, rfl, read | ⟨a, v, write⟩ | ⟨i, command⟩ | illegal | reset⟩ := step_cases legal
  · exact ⟨_, idle, rfl⟩
  · exact ⟨_, read, rfl⟩
  · exact ⟨_, write, (memWrite_frame _ a v).1.msgMax⟩
  · obtain ⟨t, ends⟩ := exec_total i { s with pending := p, trace := tr }
    exact ⟨t, command.trans ends, (exec_frame ends).1.msgMax⟩
  · exact ⟨_, illegal, rfl⟩
  · exact ⟨_, reset, rfl⟩

/-! ### Runs -/

theorem core_run_succ {M : Host.Core} {s t : M.State} (h : M.step s = .next t) (n : Nat) : M.run (n + 1) s = M.run n t := by
  rw [Host.Core.run, h]

theorem run_succ {s t : State} (h : step s = .next t) (n : Nat) : Sys2Proof.core.run (n + 1) s = Sys2Proof.core.run n t :=
  core_run_succ (M := Sys2Proof.core) h n

/-- Settles O58: by induction on the number of steps, as each keeps MSG_MAX legal. -/
theorem machineNeverStops : Obligations.MachineNeverStops := by
  intro s legal n
  induction n generalizing s with
  | zero => exact ⟨s, rfl⟩
  | succ n ih =>
    obtain ⟨t, step_eq, msgMax⟩ := step_total legal
    obtain ⟨u, run_eq⟩ := ih t (msgMax.symm ▸ legal)
    exact ⟨u, (run_succ step_eq n).trans run_eq⟩

/-- Settles O18: the reset transition's state, then what each command does there: no key length, no input length, no schedule. -/
theorem resetEventClearsTheMachine : Obligations.ResetEventClearsTheMachine := by
  intro s rest legal reset
  generalize cleared : ({ State.reset with msgMax := s.msgMax, pending := rest, trace := s.trace } : State) = t
  have keylen : t.keylen = 0x00#8 := by rw [← cleared]; rfl
  have ilen : t.ilen = 0#32 := by rw [← cleared]; rfl
  have status : t.status = 0x00#8 := by rw [← cleared]; rfl
  have kvalid : t.kvalid = false := by rw [State.kvalid, status]; rfl
  refine ⟨t, cleared ▸ step_reset legal reset, rfl, fun i loads => ?_, fun i block => ?_⟩
  · have fits : i = .expandkey ∨ ((i = .encmsg ∨ i = .decmsg) ∧ t.ilen.toNat ≤ t.msgMax) :=
      loads.imp_right fun message => ⟨message, by simp [ilen]⟩
    exact ⟨_, exec_invalid_key_length fits (by rw [keylen]; rfl), State.fail_failed .invalidKeyLength _⟩
  · obtain ⟨f, runs⟩ := exec_block block
    refine ⟨⟨t.fail .invalidBlockLength, ?_, State.fail_failed _ _⟩,
      State.fail .noSchedule { t with ilen := 16#32 }, ?_, State.fail_failed _ _⟩
    · rw [runs, blockCommand_of_bad_length f (by rw [ilen]; decide)]
    · rw [runs, blockCommand_of_no_schedule f (by rfl) (by exact kvalid)]

end Sys2Proof.Machine

namespace Sys2Proof.Machine

/-! ### Runs of a host script -/

/-- `k` steps lead from `s` to `t`, so that a longer run goes on from `t`. -/
def State.RunsTo (k : Nat) (s t : State) : Prop := ∀ n, Sys2Proof.core.run (k + n) s = Sys2Proof.core.run n t

theorem State.RunsTo.run {k : Nat} {s t : State} (h : s.RunsTo k t) : Sys2Proof.core.run k s = .next t := h 0

theorem State.RunsTo.refl (s : State) : s.RunsTo 0 s := fun n => by rw [Nat.zero_add]

theorem State.RunsTo.of_step {s t : State} (h : step s = .next t) : s.RunsTo 1 t := fun n => by
  rw [Nat.add_comm, run_succ h]

theorem State.RunsTo.trans {k m : Nat} {s t u : State} (h : s.RunsTo k t) (h' : t.RunsTo m u) : s.RunsTo (k + m) u := fun n => by
  rw [Nat.add_assoc, h, h']

/-! ### The writes of a script line -/

theorem runsTo_write {s : State} {l : Location} {v : Byte} {rest : List HostOp} (legal : msgMaxLegal s.msgMax = true)
    (inRange : l.inRange s.msgMax = true) (access : l.access = .readWrite) (next : s.pending = .write l.address v :: rest) :
    s.RunsTo 1 (State.poke { s with pending := rest, trace := .write l.address v :: s.trace } v l) := by
  have located := locate_address legal inRange
  have stored := step_write legal next (by rw [located]; exact ne_cmd_of_access (by simp [access]))
  rw [memWrite_of_readWrite (by rw [located, access]), located] at stored
  exact .of_step stored

theorem runsTo_write_reserved {s : State} {a : Addr} {v : Byte} {rest : List HostOp} (legal : msgMaxLegal s.msgMax = true)
    (reserved : locate s.msgMax a = .reserved) (next : s.pending = .write a v :: rest) :
    s.RunsTo 1 { s with pending := rest, trace := .write a v :: s.trace } := by
  have ignores := step_write legal next (by simp [reserved])
  rw [memWrite_of_ignored (.inl (by exact reserved))] at ignores
  exact .of_step ignores

/-- A run of writes to KEY stores its bytes there and touches no other register. -/
theorem runsTo_writeRun_key {s : State} {rest : List HostOp} {bytes : List Byte} {start : Nat} (legal : msgMaxLegal s.msgMax = true)
    (fits : start + bytes.length ≤ 32) (next : s.pending = writeRun .key start bytes ++ rest) :
    ∃ key tr, s.RunsTo bytes.length { s with key := key, pending := rest, trace := tr } ∧
      ∀ j, fileRead key j = if start ≤ j ∧ j < start + bytes.length then bytes.getD (j - start) 0x00#8 else fileRead s.key j := by
  induction bytes generalizing s start with
  | nil =>
    obtain rfl : s.pending = rest := next
    exact ⟨s.key, s.trace, .refl s, fun j => (if_neg (by simp)).symm⟩
  | cons b bytes ih =>
    rw [List.length_cons] at fits
    have head := runsTo_write legal (l := .key start) (by rw [Location.inRange_key]; omega) rfl next
    generalize hu : State.poke _ b (.key start) = u at head
    obtain ⟨key, tr, others, reads⟩ := ih (s := u) (start := start + 1) (by rw [← hu]; exact legal) (by omega) (by rw [← hu]; rfl)
    refine ⟨key, tr, ?_, fun j => ?_⟩
    · rw [List.length_cons, Nat.add_comm]
      have run := head.trans others
      rw [← hu] at run
      exact run
    · have key_u : fileRead u.key j = if j = start then b else fileRead s.key j := by
        rw [← hu]
        exact fileRead_fileWrite _ _ _ _ (by omega)
      rw [reads, key_u, List.length_cons]
      rcases Nat.lt_trichotomy j start with before | rfl | after
      · rw [if_neg (by omega), if_neg (by omega), if_neg (by omega)]
      · rw [if_neg (by omega), if_pos rfl, if_pos (by omega), Nat.sub_self, List.getD_cons_zero]
      · rw [if_neg (by omega : ¬ j = start), show j - start = j - (start + 1) + 1 by omega, List.getD_cons_succ]
        exact if_congr (by omega) rfl rfl

/-- Byte `k` of a number in a length register. -/
theorem lenByte_ofNat (n : Nat) {k : Nat} (hk : k < 4) : lenByte (BitVec.ofNat 32 n) k = BitVec.ofNat 8 (n / 256 ^ k) := by
  apply BitVec.eq_of_toNat_eq
  simp only [lenByte, BitVec.toNat_setWidth, BitVec.toNat_ushiftRight, Nat.shiftRight_eq_div_pow, BitVec.toNat_ofNat]
  interval_cases k <;> norm_num <;> omega

/-- The four writes of SETILEN replace the whole of ILEN (R24, R87). -/
theorem setLenByte_four (w : Len) (n : Nat) :
    setLenByte (setLenByte (setLenByte (setLenByte w 0 (BitVec.ofNat 8 (n % 256))) 1 (BitVec.ofNat 8 (n / 256 % 256))) 2
      (BitVec.ofNat 8 (n / 65536 % 256))) 3 (BitVec.ofNat 8 (n / 16777216)) = BitVec.ofNat 32 n := by
  have low_byte : ∀ m : Nat, BitVec.ofNat 8 (m % 256) = BitVec.ofNat 8 m := fun m => BitVec.eq_of_toNat_eq (by simp)
  refine len_ext fun k hk => ?_
  rw [lenByte_ofNat n hk]
  simp only [lenByte_setLenByte, hk, Nat.reduceLT, low_byte]
  interval_cases k <;> simp

theorem runsTo_setilenOps {s : State} {rest : List HostOp} {n : Nat} (legal : msgMaxLegal s.msgMax = true)
    (next : s.pending = setilenOps n ++ rest) :
    ∃ tr, s.RunsTo 4 { s with ilen := BitVec.ofNat 32 n, pending := rest, trace := tr } := by
  have inRange : ∀ k < 4, (Location.ilen k).inRange s.msgMax = true := fun k hk => by rwa [Location.inRange_ilen]
  rw [← setLenByte_four s.ilen n]
  exact ⟨_, (((runsTo_write legal (inRange 0 (by decide)) rfl next).trans (runsTo_write legal (inRange 1 (by decide)) rfl rfl)).trans
    (runsTo_write legal (inRange 2 (by decide)) rfl rfl)).trans (runsTo_write legal (inRange 3 (by decide)) rfl rfl)⟩

/-- Settles O15: the run of writes to KEY, then the write to KEYLEN. -/
theorem ldkeyLoadsTheKey : Obligations.LdkeyLoadsTheKey := by
  intro s h legal fits
  obtain ⟨key, tr, writes, reads⟩ := runsTo_writeRun_key (s := s.withScript [.ldkey h]) (bytes := h) (start := 0)
    (rest := .write Location.keylen.address (BitVec.ofNat 8 h.length) :: s.pending) legal (by omega)
    (by simp [State.withScript, expandScript, ScriptLine.expand])
  have length : (BitVec.ofNat 8 h.length).toNat = h.length := Nat.mod_eq_of_lt (by omega)
  refine ⟨_, (writes.trans (runsTo_write (l := .keylen) legal rfl rfl rfl)).run, length, fun j hj => ?_, fun j hj => ?_, rfl, rfl, rfl, rfl,
    rfl, rfl, rfl, rfl, rfl, rfl, rfl⟩
  · exact (reads j).trans (if_pos (by omega))
  · exact (reads j).trans (if_neg (by omega))

/-! ### The moves of MOVOI -/

/-- IBUF, of `cap` bytes, after OBUF's byte `j` has been moved to it: the byte is lost where its address is reserved (R87, R260). -/
def moveByte (cap : Nat) (obuf ibuf : Memory) (j : Nat) : Memory := if j < cap then ibuf.write j (obuf.read j) else ibuf

theorem moveByte_wf {cap : Nat} {ibuf : Memory} (wf : ibuf.wf cap = true) (obuf : Memory) (j : Nat) :
    (moveByte cap obuf ibuf j).wf cap = true := by
  unfold moveByte
  split_ifs with stored
  · exact Memory.wf_write wf _ stored
  · exact wf

theorem read_moveByte {cap : Nat} {ibuf : Memory} (wf : ibuf.wf cap = true) (obuf : Memory) (j k : Nat) :
    (moveByte cap obuf ibuf j).read k = if k = j ∧ k < cap then obuf.read k else ibuf.read k := by
  unfold moveByte
  by_cases stored : j < cap
  · rw [if_pos stored, Memory.read_write wf]
    by_cases here : k = j
    · rw [if_pos here, if_pos (by omega), here]
    · rw [if_neg here, if_neg fun both => here both.1]
  · rw [if_neg stored, if_neg (by omega)]

theorem runsTo_move {s : State} {rest : List HostOp} {j : Nat} (legal : msgMaxLegal s.msgMax = true) (inRange : j < s.msgMax + 16)
    (next : s.pending = .move (Location.obuf j).address (Location.ibuf j).address :: rest) :
    ∃ tr, s.RunsTo 2 { s with ibuf := moveByte s.msgMax s.obuf s.ibuf j, pending := rest, trace := tr } := by
  have most := le_of_msgMaxLegal legal
  have read : memRead s (Location.obuf j).address = s.obuf.read j :=
    memRead_address legal (by rwa [Location.inRange_obuf]) (.inl rfl)
  have reads := State.RunsTo.of_step (step_move legal next)
  rw [read] at reads
  by_cases stored : j < s.msgMax
  · have writes := reads.trans (runsTo_write (l := .ibuf j) legal (by rwa [Location.inRange_ibuf]) rfl rfl)
    rw [moveByte, if_pos stored]
    exact ⟨_, writes⟩
  · have reserved : locate s.msgMax (Location.ibuf j).address = .reserved := by
      rw [Location.address, ibufBase, locate_ofNat _ _ (by omega), locateNat_reserved_ibuf _ _ (by omega) (by omega)]
    rw [moveByte, if_neg stored]
    exact ⟨_, reads.trans (runsTo_write_reserved legal reserved rfl)⟩

/-- A run of moves copies OBUF to IBUF, as far as IBUF goes. -/
theorem runsTo_moveRun {s : State} {rest : List HostOp} {n start : Nat} (legal : msgMaxLegal s.msgMax = true)
    (fits : start + n ≤ s.msgMax + 16) (wf : s.ibuf.wf s.msgMax = true) (next : s.pending = moveRun start n ++ rest) :
    ∃ ibuf tr, s.RunsTo (2 * n) { s with ibuf := ibuf, pending := rest, trace := tr } ∧
      ∀ j, ibuf.read j = if (start ≤ j ∧ j < start + n) ∧ j < s.msgMax then s.obuf.read j else s.ibuf.read j := by
  induction n generalizing s start with
  | zero =>
    obtain rfl : s.pending = rest := next
    exact ⟨s.ibuf, s.trace, .refl s, fun j => (if_neg (by omega)).symm⟩
  | succ n ih =>
    obtain ⟨tr, head⟩ := runsTo_move legal (by omega) next
    obtain ⟨ibuf, tr', others, reads⟩ := ih (start := start + 1) (s := { s with
      ibuf := moveByte s.msgMax s.obuf s.ibuf start, pending := moveRun (start + 1) n ++ rest, trace := tr })
      legal (by dsimp only; omega) (moveByte_wf wf _ _) rfl
    refine ⟨ibuf, tr', ?_, fun j => ?_⟩
    · rw [Nat.mul_succ, Nat.add_comm]
      exact head.trans others
    · have moved := read_moveByte wf s.obuf start j
      rw [reads]
      dsimp only
      by_cases here : j = start
      · rw [if_neg (by omega), moved]
        exact if_congr (by omega) rfl rfl
      · rw [if_neg fun both => here both.1] at moved
        rw [moved]
        exact if_congr (by omega) rfl rfl

/-- Settles O16: the run of moves, then SETILEN. -/
theorem movoiCopiesTheResultToTheInput : Obligations.MovoiCopiesTheResultToTheInput := by
  intro s n legal wf fits
  have most := le_of_msgMaxLegal legal
  obtain ⟨ibuf, tr, moves, reads⟩ := runsTo_moveRun (s := s.withScript [.movoi n]) (n := n) (start := 0)
    (rest := setilenOps n ++ s.pending) legal (by rwa [Nat.zero_add]) wf (by simp [State.withScript, expandScript, ScriptLine.expand])
  obtain ⟨tr', sets⟩ := runsTo_setilenOps (s := { s.withScript [.movoi n] with
    ibuf := ibuf, pending := setilenOps n ++ s.pending, trace := tr }) legal rfl
  have length : (BitVec.ofNat 32 n).toNat = n := Nat.mod_eq_of_lt (by omega)
  refine ⟨_, (moves.trans sets).run, length, fun j hj stored => ?_, fun j outside => ?_, rfl, rfl, rfl, rfl,
    rfl, rfl, rfl, rfl, rfl, rfl, rfl⟩
  · exact (reads j).trans (if_pos ⟨⟨Nat.zero_le _, by omega⟩, stored⟩)
  · refine (reads j).trans (if_neg fun inside => ?_)
    obtain ⟨⟨-, below⟩, stored⟩ := inside
    rw [Nat.zero_add] at below
    exact outside.elim (Nat.not_le.mpr below) (Nat.not_le.mpr stored)

end Sys2Proof.Machine
